-- ==== Sys2Proof/Word.lean ====
section
/-! DEFINITION. The Word of the hackvm CORE (`00_scope.md` R7, R9, R10): 16 bits, its two readings, and the
reduction of an exact integer to a Word. -/

namespace Sys2Proof

/-- "16-bit word, bit 15 = MSB" (R9): registers, memory cells, addresses and instructions. -/
abbrev Word := BitVec 16

/-- One cell of the model's memory lists; the hardware itself has no bytes (R40, log 4). -/
abbrev Byte := BitVec 8

/-- `u(w)`: the unsigned reading, 0..65535 (R9). -/
abbrev uval (w : Word) : Nat := w.toNat

/-- `s(w)`: the signed reading, -32768..32767 (R9). -/
abbrev sval (w : Word) : Int := w.toInt

/-- `wrap16(n)`: the Word whose unsigned value is `n mod 65536` (R10). -/
abbrev wrap16 (n : Int) : Word := BitVec.ofInt 16 n

end Sys2Proof
end

