-- ==== Sys2Proof/Syntax.lean ====
section
/-! DEFINITION. The instruction set as syntax: one constructor per row of `opcode_table.json`
(`30_encoding.md` R50 to R58). Bits 14..13 of a compute Word are no field (R53) and have no place here. -/

namespace Sys2Proof

/-- The `a` bit (R52): where the ALU's second operand X comes from. -/
inductive XSource where
  /-- `a` = 0: X is register A -/
  | regA
  /-- `a` = 1: X is M, the memory Word at address A -/
  | memM
  deriving DecidableEq, Repr

/-- The `dest` field (R57): three independent flags. -/
structure Dest where
  /-- instruction bit 5: write the result to A -/
  a : Bool
  /-- instruction bit 4: write the result to D -/
  d : Bool
  /-- instruction bit 3: write the result to memory at address A -/
  m : Bool
  deriving DecidableEq, Repr

/-- The eight `jump` codes (R58), 000 to 111. -/
inductive Jump where
  | noj
  | jgt
  | jeq
  | jge
  | jlt
  | jne
  | jle
  | jmp
  deriving DecidableEq, Repr

/-- The 19 instructions (R56). -/
inductive Instr where
  /-- A.LOAD (R73); the immediate is the unsigned number 0..32767 of R55 (WellFormed checks the range) -/
  | aLoad (imm15 : Nat)
  /-- C.ZERO (R82) -/
  | cZero (x : XSource) (dest : Dest) (jump : Jump)
  /-- C.ONE (R83) -/
  | cOne (x : XSource) (dest : Dest) (jump : Jump)
  /-- C.NEG1 (R84) -/
  | cNeg1 (x : XSource) (dest : Dest) (jump : Jump)
  /-- C.D (R85) -/
  | cD (x : XSource) (dest : Dest) (jump : Jump)
  /-- C.X (R86) -/
  | cX (x : XSource) (dest : Dest) (jump : Jump)
  /-- C.NOTD (R87) -/
  | cNotD (x : XSource) (dest : Dest) (jump : Jump)
  /-- C.NOTX (R88) -/
  | cNotX (x : XSource) (dest : Dest) (jump : Jump)
  /-- C.NEGD (R89) -/
  | cNegD (x : XSource) (dest : Dest) (jump : Jump)
  /-- C.NEGA (R90) -/
  | cNegA (x : XSource) (dest : Dest) (jump : Jump)
  /-- C.INCD (R91) -/
  | cIncD (x : XSource) (dest : Dest) (jump : Jump)
  /-- C.INCX (R92) -/
  | cIncX (x : XSource) (dest : Dest) (jump : Jump)
  /-- C.DECD (R93) -/
  | cDecD (x : XSource) (dest : Dest) (jump : Jump)
  /-- C.DECX (R94) -/
  | cDecX (x : XSource) (dest : Dest) (jump : Jump)
  /-- C.ADD (R95) -/
  | cAdd (x : XSource) (dest : Dest) (jump : Jump)
  /-- C.SUBDX (R96) -/
  | cSubDX (x : XSource) (dest : Dest) (jump : Jump)
  /-- C.SUBXD (R97) -/
  | cSubXD (x : XSource) (dest : Dest) (jump : Jump)
  /-- C.AND (R98) -/
  | cAnd (x : XSource) (dest : Dest) (jump : Jump)
  /-- C.OR (R99) -/
  | cOr (x : XSource) (dest : Dest) (jump : Jump)
  deriving DecidableEq, Repr

end Sys2Proof
end

