-- ==== Sys2Proof/WellFormed.lean ====
section
/-! DEFINITION. The one check an instruction term needs: the immediate of A.LOAD is 0..32767 (R55). Every
`a`, `dest` and `jump` value is legal with every operation (`30_encoding.md` R54, R57, R58). -/

namespace Sys2Proof

/-- R55: imm15 "range is 0..32767". -/
def immInRange (imm15 : Nat) : Bool := decide (imm15 ≤ 32767)

/-- The instruction is one an encoding of R51 or R52 stands for. -/
def WellFormed : Instr → Bool
  | .aLoad imm15 => immInRange imm15
  | .cZero _ _ _ => true
  | .cOne _ _ _ => true
  | .cNeg1 _ _ _ => true
  | .cD _ _ _ => true
  | .cX _ _ _ => true
  | .cNotD _ _ _ => true
  | .cNotX _ _ _ => true
  | .cNegD _ _ _ => true
  | .cNegA _ _ _ => true
  | .cIncD _ _ _ => true
  | .cIncX _ _ _ => true
  | .cDecD _ _ _ => true
  | .cDecX _ _ _ => true
  | .cAdd _ _ _ => true
  | .cSubDX _ _ _ => true
  | .cSubXD _ _ _ => true
  | .cAnd _ _ _ => true
  | .cOr _ _ _ => true

end Sys2Proof
end

