-- ==== Sys2Proof/Decode.lean ====
section
/-! DEFINITION. The decoder (`30_encoding.md` R54), total on every Word and rejecting by name (R59), and the
encoder, both written from the formats of R51, R52 and the opcode map of R56. -/

namespace Sys2Proof

/-- Why the decoder rejects a Word: the one reason of R54. -/
inductive DecodeReject where
  /-- `comp` is none of the 18 patterns; the Word is kept for the fault record (R122) -/
  | badInstruction (w : Word)
  deriving DecidableEq, Repr

/-- Bit 12, the `a` bit (R52). -/
def fieldX (w : Word) : XSource := if w.getLsbD 12 then .memM else .regA

/-- Bits 11..6, `comp` (R52). -/
def fieldComp (w : Word) : BitVec 6 := w.extractLsb' 6 6

/-- Bits 5, 4, 3: the A, D and M flags (R52). -/
def fieldDest (w : Word) : Dest := ⟨w.getLsbD 5, w.getLsbD 4, w.getLsbD 3⟩

/-- The jump code's name (R58). -/
def jumpOfCode (c : BitVec 3) : Jump :=
  match c.toNat with
  | 0 => .noj
  | 1 => .jgt
  | 2 => .jeq
  | 3 => .jge
  | 4 => .jlt
  | 5 => .jne
  | 6 => .jle
  | _ => .jmp

/-- Bits 2..0, `jump` (R52, R58). -/
def fieldJump (w : Word) : Jump := jumpOfCode (w.extractLsb' 0 3)

/-- The 18 rows of the opcode map's compute part, in the order of R56. -/
def compTable : List (BitVec 6 × (XSource → Dest → Jump → Instr)) :=
  [(0b101010#6, .cZero), (0b111111#6, .cOne), (0b111010#6, .cNeg1),
   (0b001100#6, .cD), (0b110000#6, .cX), (0b001101#6, .cNotD), (0b110001#6, .cNotX),
   (0b001111#6, .cNegD), (0b110011#6, .cNegA)] ++
  [(0b011111#6, .cIncD), (0b110111#6, .cIncX), (0b001110#6, .cDecD), (0b110010#6, .cDecX),
   (0b000010#6, .cAdd), (0b010011#6, .cSubDX), (0b000111#6, .cSubXD),
   (0b000000#6, .cAnd), (0b010101#6, .cOr)]

/-- R54: bit 15 selects the format (R72); a compute Word whose `comp` is in no row is rejected (R59). -/
def decode (w : Word) : Except DecodeReject Instr :=
  if w.getLsbD 15 then
    match compTable.lookup (fieldComp w) with
    | some mk => .ok (mk (fieldX w) (fieldDest w) (fieldJump w))
    | none => .error (.badInstruction w)
  else .ok (.aLoad (w.extractLsb' 0 15).toNat)

/-- The `a` bit of an operand source (R52). -/
def codeX : XSource → BitVec 1
  | .regA => 0#1
  | .memM => 1#1

/-- The three flag bits, A flag first (R52). -/
def codeDest (dest : Dest) : BitVec 3 :=
  BitVec.ofBool dest.a ++ BitVec.ofBool dest.d ++ BitVec.ofBool dest.m

/-- The jump code (R58). -/
def codeJump : Jump → BitVec 3
  | .noj => 0b000#3
  | .jgt => 0b001#3
  | .jeq => 0b010#3
  | .jge => 0b011#3
  | .jlt => 0b100#3
  | .jne => 0b101#3
  | .jle => 0b110#3
  | .jmp => 0b111#3

/-- A compute Word (R52). Bits 14..13 are free (R53); the encoder sets both, as the spec's own examples do.
DESIGN CHOICE, safe; log 14. -/
def encodeCompute (comp : BitVec 6) (x : XSource) (dest : Dest) (jump : Jump) : Word :=
  0b111#3 ++ codeX x ++ comp ++ codeDest dest ++ codeJump jump

/-- The Word of a well-formed instruction (R51, R52, R56). -/
def encode : Instr → Word
  | .aLoad imm15 => 0#1 ++ BitVec.ofNat 15 imm15
  | .cZero x dest jump => encodeCompute 0b101010#6 x dest jump
  | .cOne x dest jump => encodeCompute 0b111111#6 x dest jump
  | .cNeg1 x dest jump => encodeCompute 0b111010#6 x dest jump
  | .cD x dest jump => encodeCompute 0b001100#6 x dest jump
  | .cX x dest jump => encodeCompute 0b110000#6 x dest jump
  | .cNotD x dest jump => encodeCompute 0b001101#6 x dest jump
  | .cNotX x dest jump => encodeCompute 0b110001#6 x dest jump
  | .cNegD x dest jump => encodeCompute 0b001111#6 x dest jump
  | .cNegA x dest jump => encodeCompute 0b110011#6 x dest jump
  | .cIncD x dest jump => encodeCompute 0b011111#6 x dest jump
  | .cIncX x dest jump => encodeCompute 0b110111#6 x dest jump
  | .cDecD x dest jump => encodeCompute 0b001110#6 x dest jump
  | .cDecX x dest jump => encodeCompute 0b110010#6 x dest jump
  | .cAdd x dest jump => encodeCompute 0b000010#6 x dest jump
  | .cSubDX x dest jump => encodeCompute 0b010011#6 x dest jump
  | .cSubXD x dest jump => encodeCompute 0b000111#6 x dest jump
  | .cAnd x dest jump => encodeCompute 0b000000#6 x dest jump
  | .cOr x dest jump => encodeCompute 0b010101#6 x dest jump

/-- The `match` and `mask` columns of the opcode map (R56): "a Word `w` is the instruction iff
`(w & mask) == match`". -/
def opcodeRow : Instr → Word × Word
  | .aLoad _ => (0x0000, 0x8000)
  | .cZero _ _ _ => (0x8A80, 0x8FC0)
  | .cOne _ _ _ => (0x8FC0, 0x8FC0)
  | .cNeg1 _ _ _ => (0x8E80, 0x8FC0)
  | .cD _ _ _ => (0x8300, 0x8FC0)
  | .cX _ _ _ => (0x8C00, 0x8FC0)
  | .cNotD _ _ _ => (0x8340, 0x8FC0)
  | .cNotX _ _ _ => (0x8C40, 0x8FC0)
  | .cNegD _ _ _ => (0x83C0, 0x8FC0)
  | .cNegA _ _ _ => (0x8CC0, 0x8FC0)
  | .cIncD _ _ _ => (0x87C0, 0x8FC0)
  | .cIncX _ _ _ => (0x8DC0, 0x8FC0)
  | .cDecD _ _ _ => (0x8380, 0x8FC0)
  | .cDecX _ _ _ => (0x8C80, 0x8FC0)
  | .cAdd _ _ _ => (0x8080, 0x8FC0)
  | .cSubDX _ _ _ => (0x84C0, 0x8FC0)
  | .cSubXD _ _ _ => (0x81C0, 0x8FC0)
  | .cAnd _ _ _ => (0x8000, 0x8FC0)
  | .cOr _ _ _ => (0x8540, 0x8FC0)

/-- The first instruction Word of a table row's bits: an instruction is one Word (R50), so only bits 15..0
can belong to it. -/
def firstWord (nbits w : Nat) : Word := BitVec.ofNat 16 (w % 2 ^ nbits)

/-- What the decoder reads from a row's bits, numbered as `opcode_table.json` numbers them. -/
def decodeTableWord (nbits w : Nat) : Option Instr :=
  match decode (firstWord nbits w) with
  | .ok i => some i
  | .error _ => none

end Sys2Proof
end

