-- ==== Sys2Proof/Config.lean ====
section
/-! DEFINITION. The parameters of the machine: the fixed address-space constants (`00_scope.md` R7), the
power-on values the spec leaves open (R8, D8 to D10) and the free keyboard input (R8, D12). -/

namespace Sys2Proof.Config

/-- ISTORE_WORDS: cells of the Instruction Store, addresses 0x0000..0x7FFF (R7). -/
@[simp, reducible] def istoreWords : Nat := 32768

/-- The last Instruction Store address (R7, R31). -/
@[simp, reducible] def istoreLast : Nat := 0x7FFF

/-- RAM_WORDS (R7). -/
@[simp, reducible] def ramWords : Nat := 16384

/-- RAM_LAST; RAM_BASE is 0 (R7). -/
@[simp, reducible] def ramLast : Nat := 0x3FFF

/-- FB_BASE (R7). -/
@[simp, reducible] def fbBase : Nat := 0x4000

/-- FB_LAST (R7). -/
@[simp, reducible] def fbLast : Nat := 0x5FFF

/-- FB_WORDS (R7). -/
@[simp, reducible] def fbWords : Nat := 8192

/-- KBD_ADDR, also MAX_ADDR (R7). -/
@[simp, reducible] def kbdAddr : Nat := 0x6000

/-- INIT_A: open (R8, D8). DESIGN CHOICE 0x0000, the spec's suggested default; unsafe; log 1. -/
def initA : Word := 0

/-- INIT_D: open (R8, D8). DESIGN CHOICE 0x0000, the spec's suggested default; unsafe; log 1. -/
def initD : Word := 0

/-- What a cell of RAM, framebuffer or Instruction Store that no entry lists reads as: INIT_RAM and INIT_FB
(D9, log 2) and the store before any load (D10, log 3) are open. DESIGN CHOICE 0, the spec's suggested default;
unsafe. Power-on takes every memory, and loading takes ROM_FILL, as an argument. -/
def unlistedByte : Byte := 0

/-- KBD_STREAM (R8, D12): the Word a keyboard read draws, by the number of reads made before it. It has no
body: a claim holds for every value of it. DESIGN CHOICE of form, safe; log 5. -/
opaque kbdStream : Nat → Word

end Sys2Proof.Config
end

