-- ==== Sys2Proof/Machine/State.lean ====
section
/-! DEFINITION. The machine's state as plain data (`10_state.md` R13, R22 to R24, R26, R28), why a step can stop
(`60_exceptions.md` R120, R126), and the state at power-on and after reset. -/

namespace Sys2Proof.Machine

/-- The phase of the step that raised BadAddress (R120). -/
inductive Site where
  | fetch
  | dataRead
  | dataWrite
  deriving DecidableEq, Repr

/-- The fault record of R126, delivered to the host. Both kinds are the spec's own, so a stop here is one the
hardware makes too: safe. -/
inductive Fault where
  /-- Raised by the fetch (R121), the data read (R123) and the data write (R124): the address used, and the
  instruction Word (none for a fetch). Safe: the hardware reports the same. -/
  | badAddress (site : Site) (addr : Word) (instr : Option Word)
  /-- Raised by the decoder for a compute Word with an illegal `comp` (R122). Safe: the hardware reports the same. -/
  | badInstruction (instr : Word)
  deriving DecidableEq, Repr

/-- Why the model gives no answer. No instruction uses it: every row of the table has its meaning. -/
inductive Refusal where
  /-- Raised by an arm of exec whose instruction has no meaning yet (none is left). Safe: the model only stops. -/
  | notModelled (mnemonic : String)
  deriving DecidableEq, Repr

/-- A memory as cells in one canonical form (Machine/Memory.lean): addresses strictly rising, and no entry that
says what an unlisted address reads as. Word `i` is the two cells 2i and 2i + 1 (log 4). -/
abbrev Memory := List Host.Cell

/-- Everything the spec gives the machine. The last two fields are the model's own form of the free input
KBD_STREAM (R28, R38; log 5). -/
structure State where
  /-- register A, the address/data register (R14) -/
  a : Word
  /-- register D, the data register (R15) -/
  d : Word
  /-- the program counter (R17) -/
  pc : Word
  /-- the Instruction Store, 32768 Words (R23; log 8) -/
  rom : Memory
  /-- the dispatcher's working memory, 16384 Words (R24, R36) -/
  ram : Memory
  /-- the framebuffer's cells FBMEM, 8192 Words, by offset (R37, D11) -/
  fb : Memory
  /-- the Words the input side presents at the coming keyboard reads, next first (R38) -/
  kbd : List Word
  /-- how many keyboard Words have been drawn; it indexes Config.kbdStream when kbd is empty -/
  kbdReads : Nat
  deriving DecidableEq, Repr

/-- Power-on ("construction", R26, R142): PC is 0, everything else is an argument. -/
def State.powerOn (initA initD : Word) (rom initRam initFb : Memory) (kbd : List Word) (kbdReads : Nat) : State :=
  { a := initA, d := initD, pc := 0, rom := rom, ram := initRam, fb := initFb, kbd := kbd, kbdReads := kbdReads }

/-- The machine right after reset, on a machine newly constructed with the default power-on values (R26, R140):
PC = 0 is the spec's; A and D (log 1), memory contents (log 2, log 3) and the keyboard fields (log 5) are
DESIGN CHOICES. -/
def State.reset : State := State.powerOn Config.initA Config.initD [] [] [] [] 0

end Sys2Proof.Machine
end

