-- ==== Sys2Proof/Machine/Memory.lean ====
section
/-! DEFINITION. Reading and writing one cell and one Word of a memory, and the canonical form every memory
keeps (log 4). Word order and byte order are decided here, once. -/

namespace Sys2Proof.Machine

/-- One cell: the entry listed for it, or what an unlisted address reads as. -/
def Memory.readByte : Memory → Nat → Byte
  | [], _ => Config.unlistedByte
  | (j, b) :: rest, k => if k = j then b else Memory.readByte rest k

/-- List `b` at `k`, in its place by address. -/
def Memory.insert : Memory → Nat → Byte → Memory
  | [], k, b => [(k, b)]
  | (j, c) :: rest, k, b =>
    if k < j then (k, b) :: (j, c) :: rest
    else if k = j then (k, b) :: rest
    else (j, c) :: Memory.insert rest k b

/-- Write one cell; writing what an unlisted address reads as removes the entry. -/
def Memory.writeByte (m : Memory) (k : Nat) (b : Byte) : Memory :=
  if b = Config.unlistedByte then m.filter (fun c => c.1 != k) else Memory.insert m k b

/-- Bits 7..0 of a Word. -/
def loByte (w : Word) : Byte := w.extractLsb' 0 8

/-- Bits 15..8 of a Word. -/
def hiByte (w : Word) : Byte := w.extractLsb' 8 8

/-- A Word from its two cells. -/
def wordOfBytes (hi lo : Byte) : Word := hi ++ lo

/-- Word `i` of a memory: the low byte at cell 2i, the high byte at cell 2i + 1. The order is the model's own and
cannot be observed (R40). DESIGN CHOICE, safe; log 4. -/
def Memory.readWord (m : Memory) (i : Nat) : Word :=
  wordOfBytes (m.readByte (2 * i + 1)) (m.readByte (2 * i))

/-- Write Word `i`: all 16 bits, no partial write (R34). -/
def Memory.writeWord (m : Memory) (i : Nat) (w : Word) : Memory :=
  (m.writeByte (2 * i) (loByte w)).writeByte (2 * i + 1) (hiByte w)

/-- Canonical from address `lo` on: addresses strictly rising, no entry equal to what is unlisted. -/
def Memory.wfFrom : Nat → Memory → Bool
  | _, [] => true
  | lo, (k, b) :: rest => decide (lo ≤ k) && (b != Config.unlistedByte) && Memory.wfFrom (k + 1) rest

/-- The canonical form. -/
def Memory.wf (m : Memory) : Bool := Memory.wfFrom 0 m

/-- Every listed cell belongs to one of the first `words` Words. -/
def Memory.within (words : Nat) (m : Memory) : Bool := m.all (fun c => decide (c.1 < 2 * words))

/-- The Words `ws` placed one after the other from Word `i` on, over what the memory held. -/
def Memory.placeWords : Memory → Nat → List Word → Memory
  | m, _, [] => m
  | m, i, w :: ws => Memory.placeWords (m.writeWord i w) (i + 1) ws

/-- List a cell before `m`, unless an unlisted address reads as `b` anyway. -/
def Memory.consCell (k : Nat) (b : Byte) (m : Memory) : Memory :=
  if b = Config.unlistedByte then m else (k, b) :: m

/-- The Word `w` at each of the `n` Word addresses from `i` on. -/
def Memory.fillFrom (w : Word) : Nat → Nat → Memory
  | _, 0 => []
  | i, n + 1 =>
    Memory.consCell (2 * i) (loByte w) (Memory.consCell (2 * i + 1) (hiByte w) (Memory.fillFrom w (i + 1) n))

/-- A memory whose first `words` Words are all `w`; nothing is listed where `w` is what unlisted Words read as. -/
def Memory.filled (words : Nat) (w : Word) : Memory :=
  if wordOfBytes Config.unlistedByte Config.unlistedByte = w then [] else Memory.fillFrom w 0 words

end Sys2Proof.Machine
end

