-- ==== Sys2Proof/Machine/Ops.lean ====
section
/-! DEFINITION. The named operations over registers and memory: the fetch (`20_memory.md` R31), the dispatcher's
read and write (R33, R34), the keyboard draw (R38), and raising a fault (`60_exceptions.md` R126, R127). -/

namespace Sys2Proof.Machine

/-- `A <- v` (R10). -/
def State.setA (s : State) (v : Word) : State := { s with a := v }

/-- `D <- v` (R10). -/
def State.setD (s : State) (v : Word) : State := { s with d := v }

/-- `PC <- v` (R10); no instruction checks the value (R17, D6). -/
def State.setPc (s : State) (v : Word) : State := { s with pc := v }

/-- Replace the Instruction Store; only loading does it (R48, R141). -/
def State.setRom (s : State) (m : Memory) : State := { s with rom := m }

/-- Replace working memory. -/
def State.setRam (s : State) (m : Memory) : State := { s with ram := m }

/-- Replace the framebuffer's cells. -/
def State.setFb (s : State) (m : Memory) : State := { s with fb := m }

/-- Drop the presented keyboard Word and count the draw. -/
def State.nextKbd (s : State) : State := { s with kbd := s.kbd.tail, kbdReads := s.kbdReads + 1 }

/-- `wrap16(u(PC) + 1)` (R18, D6). -/
def pcPlusOne (pc : Word) : Word := wrap16 (uval pc + 1)

/-- TAKING AN EXCEPTION. There is no trap entry: the step ends, the record goes to the host on the FAULT port and
the machine's state stays as it was before the step, so the outcome carries the record alone (R126, R127). There
is no return from a fault either: a further step runs the same instruction again (R128). Log 12. -/
def raise (f : Fault) : Host.Outcome State Fault Refusal := .fault f

/-- The Word `ROM[addr]`, where the Instruction Store has that address (R31). -/
def romWord (s : State) (addr : Word) : Option Word :=
  if uval addr ≤ Config.istoreLast then some (s.rom.readWord (uval addr)) else none

/-- "the offending instruction word attached as context" (R126): the Word this step fetched. PC keeps its value
until the step's last phase, so it is `ROM[PC]`. -/
def instrWord (s : State) : Option Word := romWord s s.pc

/-- `IFetch(addr)` (R31): no side effect; no instruction Word exists for the record (R121). -/
def ifetch (addr : Word) (s : State) : Except Fault Word :=
  match romWord s addr with
  | some w => .ok w
  | none => .error (.badAddress .fetch addr none)

/-- Fetch at PC, then decode (R70, R71): what a step does before it executes. -/
def fetchDecode (s : State) : Except Fault Instr :=
  match ifetch s.pc s with
  | .error f => .error f
  | .ok w =>
    match decode w with
    | .error (.badInstruction w') => .error (.badInstruction w')
    | .ok i => .ok i

/-- The Word the next keyboard read returns (R38): what the input side presents, else a free Word (D12). -/
def kbdWord (s : State) : Word :=
  match s.kbd with
  | w :: _ => w
  | [] => Config.kbdStream s.kbdReads

/-- `MemRead(addr)` (R33): the Word, and the state with the keyboard draw made if 0x6000 was read. -/
def memRead (addr : Word) (s : State) : Except Fault (Word × State) :=
  if uval addr = Config.kbdAddr then .ok (kbdWord s, s.nextKbd)
  else if Config.fbBase ≤ uval addr ∧ uval addr ≤ Config.fbLast then
    .ok (s.fb.readWord (uval addr - Config.fbBase), s)
  else if uval addr ≤ Config.ramLast then .ok (s.ram.readWord (uval addr), s)
  else .error (.badAddress .dataRead addr (instrWord s))

/-- `MemWrite(addr, v)` (R34): 0x6000 and everything above is rejected (D5). -/
def memWrite (addr v : Word) (s : State) : Except Fault State :=
  if uval addr ≤ Config.ramLast then .ok (s.setRam (s.ram.writeWord (uval addr) v))
  else if Config.fbBase ≤ uval addr ∧ uval addr ≤ Config.fbLast then
    .ok (s.setFb (s.fb.writeWord (uval addr - Config.fbBase) v))
  else .error (.badAddress .dataWrite addr (instrWord s))

end Sys2Proof.Machine
end

