-- ==== Sys2Proof/Machine/Address.lean ====
section
/-! DEFINITION. The address instruction's meaning (`40_step_and_address_instruction.md` R73). -/

namespace Sys2Proof.Machine

/-- A.LOAD (R73): `A <- zext_16(imm15)`, `PC <- wrap16(u(PC) + 1)`; it cannot fault. An
immediate above 32767, which no Word encodes, is reduced modulo 65536: DESIGN CHOICE, safe; log 15. -/
def execALoad (imm15 : Nat) (s : State) : Host.Outcome State Fault Refusal :=
  .next ((s.setA (wrap16 imm15)).setPc (pcPlusOne s.pc))

end Sys2Proof.Machine
end

