-- ==== Sys2Proof/Machine/Alu.lean ====
section
/-! DEFINITION. The 18 ALU operations (`41_compute_alu.md` R81 to R99) on the Words D, A and X. Arithmetic is on
the signed values as exact integers, reduced once at the end (R81, R100, D1). -/

namespace Sys2Proof.Machine

/-- R82: `result <- 0x0000`. -/
def aluZero (_d _a _x : Word) : Word := wrap16 0

/-- R83: `result <- 0x0001`. -/
def aluOne (_d _a _x : Word) : Word := wrap16 1

/-- R84: `result <- 0xFFFF`. -/
def aluNeg1 (_d _a _x : Word) : Word := wrap16 (-1)

/-- R85: `result <- D`. -/
def aluD (d _a _x : Word) : Word := d

/-- R86: `result <- X`. -/
def aluX (_d _a x : Word) : Word := x

/-- R87: `result <- ~D`. -/
def aluNotD (d _a _x : Word) : Word := ~~~d

/-- R88: `result <- ~X`. -/
def aluNotX (_d _a x : Word) : Word := ~~~x

/-- R89: `wrap16(-s(D))`. -/
def aluNegD (d _a _x : Word) : Word := wrap16 (-sval d)

/-- R90: `wrap16(-s(A))`, A and not X, whatever the `a` bit. -/
def aluNegA (_d a _x : Word) : Word := wrap16 (-sval a)

/-- R91: `wrap16(s(D) + 1)`. -/
def aluIncD (d _a _x : Word) : Word := wrap16 (sval d + 1)

/-- R92: `wrap16(s(X) + 1)`. -/
def aluIncX (_d _a x : Word) : Word := wrap16 (sval x + 1)

/-- R93: `wrap16(s(D) - 1)`. -/
def aluDecD (d _a _x : Word) : Word := wrap16 (sval d - 1)

/-- R94: `wrap16(s(X) - 1)`. -/
def aluDecX (_d _a x : Word) : Word := wrap16 (sval x - 1)

/-- R95: `wrap16(s(D) + s(X))`. -/
def aluAdd (d _a x : Word) : Word := wrap16 (sval d + sval x)

/-- R96: `wrap16(s(D) - s(X))`. -/
def aluSubDX (d _a x : Word) : Word := wrap16 (sval d - sval x)

/-- R97: `wrap16(s(X) - s(D))`. -/
def aluSubXD (d _a x : Word) : Word := wrap16 (sval x - sval d)

/-- R98: `D & X`. -/
def aluAnd (d _a x : Word) : Word := d &&& x

/-- R99: `D | X`. -/
def aluOr (d _a x : Word) : Word := d ||| x

end Sys2Proof.Machine
end

