-- ==== Sys2Proof/Machine/Flags.lean ====
section
/-! DEFINITION. The machine has no flags (`10_state.md` R19); what takes their place is the jump condition on the
result of the same step (`42_writeback_and_jump.md` R109). -/

namespace Sys2Proof.Machine

/-- `JumpCond(jump, result)` (R109): bit 2 jumps if negative, bit 1 if zero, bit 0 if positive, on `s(result)`. -/
def jumpCond (jump : Jump) (result : Word) : Bool :=
  ((codeJump jump).getLsbD 2 && decide (sval result < 0)) ||
  ((codeJump jump).getLsbD 1 && decide (sval result = 0)) ||
  ((codeJump jump).getLsbD 0 && decide (0 < sval result))

end Sys2Proof.Machine
end

