-- ==== Sys2Proof/Machine/Operands.lean ====
section
/-! DEFINITION. The phases every compute instruction shares (`40_step_and_address_instruction.md` R74): resolving X
(`41_compute_alu.md` R80), write-back (`42_writeback_and_jump.md` R104 to R107), the PC update (R118, R119), and
their sequence around one ALU operation. -/

namespace Sys2Proof.Machine

/-- R80: X is A, or the Word at address A; the read happens for every operation when `a` = 1 (D3). -/
def resolveX (x : XSource) (s : State) : Except Fault (Word × State) :=
  match x with
  | .regA => .ok (s.a, s)
  | .memM => memRead s.a s

/-- R105: the memory write uses A as it was before the step. -/
def writeM (dest : Dest) (result : Word) (s : State) : Except Fault State :=
  if dest.m then memWrite s.a result s else .ok s

/-- R106, R107: A, then D. -/
def writeRegs (dest : Dest) (result : Word) (s : State) : State :=
  let s1 := if dest.a then s.setA result else s
  if dest.d then s1.setD result else s1

/-- R104: memory, then A, then D; a failing memory write leaves A and D unwritten. -/
def writeBack (dest : Dest) (result : Word) (s : State) : Except Fault State :=
  match writeM dest result s with
  | .error f => .error f
  | .ok s1 => .ok (writeRegs dest result s1)

/-- R118, R119: to the A of after write-back if the condition holds on the result, else to PC + 1. -/
def updatePc (jump : Jump) (result : Word) (s : State) : State :=
  if jumpCond jump result then s.setPc s.a else s.setPc (pcPlusOne s.pc)

/-- R74: the five phases, around the ALU operation `op` on D, A and X of before the step. -/
def compute (op : Word → Word → Word → Word) (x : XSource) (dest : Dest) (jump : Jump) (s : State) :
    Host.Outcome State Fault Refusal :=
  match resolveX x s with
  | .error f => raise f
  | .ok (xv, s1) =>
    match writeBack dest (op s.d s.a xv) s1 with
    | .error f => raise f
    | .ok s2 => .next (updatePc jump (op s.d s.a xv) s2)

end Sys2Proof.Machine
end

