-- ==== Sys2Proof/Machine/Compute.lean ====
section
/-! DEFINITION. The meanings of the 18 compute instructions (`41_compute_alu.md` R82 to R99): each is the shared
five phases around its own ALU operation. -/

namespace Sys2Proof.Machine

/-- C.ZERO (R82). -/
def execCZero (x : XSource) (dest : Dest) (jump : Jump) (s : State) : Host.Outcome State Fault Refusal :=
  compute aluZero x dest jump s

/-- C.ONE (R83). -/
def execCOne (x : XSource) (dest : Dest) (jump : Jump) (s : State) : Host.Outcome State Fault Refusal :=
  compute aluOne x dest jump s

/-- C.NEG1 (R84). -/
def execCNeg1 (x : XSource) (dest : Dest) (jump : Jump) (s : State) : Host.Outcome State Fault Refusal :=
  compute aluNeg1 x dest jump s

/-- C.D (R85). -/
def execCD (x : XSource) (dest : Dest) (jump : Jump) (s : State) : Host.Outcome State Fault Refusal :=
  compute aluD x dest jump s

/-- C.X (R86). -/
def execCX (x : XSource) (dest : Dest) (jump : Jump) (s : State) : Host.Outcome State Fault Refusal :=
  compute aluX x dest jump s

/-- C.NOTD (R87). -/
def execCNotD (x : XSource) (dest : Dest) (jump : Jump) (s : State) : Host.Outcome State Fault Refusal :=
  compute aluNotD x dest jump s

/-- C.NOTX (R88). -/
def execCNotX (x : XSource) (dest : Dest) (jump : Jump) (s : State) : Host.Outcome State Fault Refusal :=
  compute aluNotX x dest jump s

/-- C.NEGD (R89). -/
def execCNegD (x : XSource) (dest : Dest) (jump : Jump) (s : State) : Host.Outcome State Fault Refusal :=
  compute aluNegD x dest jump s

/-- C.NEGA (R90). -/
def execCNegA (x : XSource) (dest : Dest) (jump : Jump) (s : State) : Host.Outcome State Fault Refusal :=
  compute aluNegA x dest jump s

/-- C.INCD (R91). -/
def execCIncD (x : XSource) (dest : Dest) (jump : Jump) (s : State) : Host.Outcome State Fault Refusal :=
  compute aluIncD x dest jump s

/-- C.INCX (R92). -/
def execCIncX (x : XSource) (dest : Dest) (jump : Jump) (s : State) : Host.Outcome State Fault Refusal :=
  compute aluIncX x dest jump s

/-- C.DECD (R93). -/
def execCDecD (x : XSource) (dest : Dest) (jump : Jump) (s : State) : Host.Outcome State Fault Refusal :=
  compute aluDecD x dest jump s

/-- C.DECX (R94). -/
def execCDecX (x : XSource) (dest : Dest) (jump : Jump) (s : State) : Host.Outcome State Fault Refusal :=
  compute aluDecX x dest jump s

/-- C.ADD (R95). -/
def execCAdd (x : XSource) (dest : Dest) (jump : Jump) (s : State) : Host.Outcome State Fault Refusal :=
  compute aluAdd x dest jump s

/-- C.SUBDX (R96). -/
def execCSubDX (x : XSource) (dest : Dest) (jump : Jump) (s : State) : Host.Outcome State Fault Refusal :=
  compute aluSubDX x dest jump s

/-- C.SUBXD (R97). -/
def execCSubXD (x : XSource) (dest : Dest) (jump : Jump) (s : State) : Host.Outcome State Fault Refusal :=
  compute aluSubXD x dest jump s

/-- C.AND (R98). -/
def execCAnd (x : XSource) (dest : Dest) (jump : Jump) (s : State) : Host.Outcome State Fault Refusal :=
  compute aluAnd x dest jump s

/-- C.OR (R99). -/
def execCOr (x : XSource) (dest : Dest) (jump : Jump) (s : State) : Host.Outcome State Fault Refusal :=
  compute aluOr x dest jump s

end Sys2Proof.Machine
end

