-- ==== Sys2Proof/Machine/Dispatch.lean ====
section
/-! DEFINITION. One arm per instruction (`30_encoding.md` R56), each one call of its meaning. -/

namespace Sys2Proof.Machine

def exec (i : Instr) (s : State) : Host.Outcome State Fault Refusal :=
  match i with
  | .aLoad imm15 => Sys2Proof.Machine.execALoad imm15 s
  | .cZero x dest jump => Sys2Proof.Machine.execCZero x dest jump s
  | .cOne x dest jump => Sys2Proof.Machine.execCOne x dest jump s
  | .cNeg1 x dest jump => Sys2Proof.Machine.execCNeg1 x dest jump s
  | .cD x dest jump => Sys2Proof.Machine.execCD x dest jump s
  | .cX x dest jump => Sys2Proof.Machine.execCX x dest jump s
  | .cNotD x dest jump => Sys2Proof.Machine.execCNotD x dest jump s
  | .cNotX x dest jump => Sys2Proof.Machine.execCNotX x dest jump s
  | .cNegD x dest jump => Sys2Proof.Machine.execCNegD x dest jump s
  | .cNegA x dest jump => Sys2Proof.Machine.execCNegA x dest jump s
  | .cIncD x dest jump => Sys2Proof.Machine.execCIncD x dest jump s
  | .cIncX x dest jump => Sys2Proof.Machine.execCIncX x dest jump s
  | .cDecD x dest jump => Sys2Proof.Machine.execCDecD x dest jump s
  | .cDecX x dest jump => Sys2Proof.Machine.execCDecX x dest jump s
  | .cAdd x dest jump => Sys2Proof.Machine.execCAdd x dest jump s
  | .cSubDX x dest jump => Sys2Proof.Machine.execCSubDX x dest jump s
  | .cSubXD x dest jump => Sys2Proof.Machine.execCSubXD x dest jump s
  | .cAnd x dest jump => Sys2Proof.Machine.execCAnd x dest jump s
  | .cOr x dest jump => Sys2Proof.Machine.execCOr x dest jump s

end Sys2Proof.Machine
end

