-- ==== Sys2Proof/Machine/Step.lean ====
section
/-! DEFINITION. One step (`40_step_and_address_instruction.md` R70): fetch, decode, execute. -/

namespace Sys2Proof.Machine

/-- R70: a fault of the fetch or of the decoder ends the step; else the decoded instruction runs. -/
def step (s : State) : Host.Outcome State Fault Refusal :=
  match fetchDecode s with
  | .error f => raise f
  | .ok i => exec i s

/-- `s` with a table row's Word stored where the next step fetches. It stands for the load of a program from
outside the machine (R141; log 8); where PC is outside the Instruction Store nothing can be fetched, so PC
becomes 0. -/
def State.withFetchWord (s : State) (nbits w : Nat) : State :=
  let pc := if uval s.pc ≤ Config.istoreLast then s.pc else 0
  (s.setPc pc).setRom (s.rom.writeWord (uval pc) (firstWord nbits w))

end Sys2Proof.Machine
end

