-- ==== Sys2Proof/Machine/HostActions.lean ====
section
/-! DEFINITION. What the host can do to the machine (`70_reset_and_hazards.md` R140 to R144), as functions on states.
Construction is State.powerOn, stepping is step, stopping is not calling step, and a fault is step's fault outcome.
When an action is allowed (before launch, between two steps) is a premise of a claim, not part of the state (log 13). -/

namespace Sys2Proof.Machine

/-- The reset event (R140): `PC <- 0x0000`, everything else unchanged. -/
def State.resetEvent (s : State) : State := s.setPc 0

/-- Load a program (R141): the whole image is replaced, Word `n` at `ROM[n]`, and every cell past the last Word
holds ROM_FILL, which is open and so an argument (R8, D10; log 3). More Words than the store has cells are no
program, and no Words at all are one (N14; DESIGN CHOICE; log 10). -/
def State.loadProgram (romFill : Word) (ws : List Word) (s : State) : Option State :=
  if ws.length ≤ Config.istoreWords then
    some (s.setRom (Memory.placeWords (Memory.filled Config.istoreWords romFill) 0 ws))
  else none

/-- One character of the text format (R60). -/
def parseBit (c : Char) : Option Bool :=
  if c = '0' then some false else if c = '1' then some true else none

/-- Shift the bits in, most significant first. -/
def bitsToWord : List Bool → Word → Word
  | [], w => w
  | b :: bs, w => bitsToWord bs ((w <<< 1) ||| (BitVec.ofBool b).setWidth 16)

/-- One line (R60): exactly 16 characters `0` or `1`, MSB first; anything else is a load error. -/
def parseLine (line : List Char) : Option Word :=
  if line.length = 16 then
    match line.mapM parseBit with
    | some bits => some (bitsToWord bits 0)
    | none => none
  else none

/-- Load a program from its text, one line per instruction; a bad line is a fatal load error (R60). What the spec
does not say (N14) is the model's DESIGN CHOICE (log 10): an empty text loads and leaves ROM_FILL in every cell; a
blank line, a comment or a terminator within a line is a bad line; over 32768 lines do not load. -/
def State.loadText (romFill : Word) (lines : List (List Char)) (s : State) : Option State :=
  match lines.mapM parseLine with
  | some ws => s.loadProgram romFill ws
  | none => none

/-- Memory clear (R144, D17): `RAM[i] <- 0x0000` for all i. That the framebuffer stays as it was is not D17's, which
leaves it open: DESIGN CHOICE, unsafe; log 11. -/
def State.memoryClear (s : State) : State := s.setRam []

/-- Write initial data (R144): `RAM[i] <- v` by the dispatcher's write rule. -/
def State.hostWriteRam (i v : Word) (s : State) : Option State :=
  if uval i ≤ Config.ramLast then
    match memWrite i v s with
    | .ok t => some t
    | .error _ => none
  else none

/-- Change the keyboard word (R144, R38): the Words the coming reads return, next first. -/
def State.presentKeyboard (ws : List Word) (s : State) : State := { s with kbd := ws }

/-- Inspect `RAM[i]` between two steps (R144). -/
def State.inspectRam (i : Nat) (s : State) : Word := s.ram.readWord i

/-- Inspect the framebuffer Word at an offset between two steps (R144; the display side, R45). -/
def State.inspectFb (off : Nat) (s : State) : Word := s.fb.readWord off

/-- The data address of the Word that holds the pixel at row `r`, column `c` (R37). -/
def pixelAddress (r c : Nat) : Nat := Config.fbBase + 32 * r + c / 16

end Sys2Proof.Machine
end

