-- ==== Sys2Proof/Safety.lean ====
section
/-! DEFINITION. What counts as a safe run, and the words the claims use: when a step can complete, what a compute
instruction leaves, the invariant every state keeps, and the end of a run by loop. -/

namespace Sys2Proof.Machine

/-- The `a`, `dest` and `jump` fields of a compute instruction (R52). -/
def computeFields : Instr → Option (XSource × Dest × Jump)
  | .aLoad _ => none
  | .cZero x dest jump => some (x, dest, jump)
  | .cOne x dest jump => some (x, dest, jump)
  | .cNeg1 x dest jump => some (x, dest, jump)
  | .cD x dest jump => some (x, dest, jump)
  | .cX x dest jump => some (x, dest, jump)
  | .cNotD x dest jump => some (x, dest, jump)
  | .cNotX x dest jump => some (x, dest, jump)
  | .cNegD x dest jump => some (x, dest, jump)
  | .cNegA x dest jump => some (x, dest, jump)
  | .cIncD x dest jump => some (x, dest, jump)
  | .cIncX x dest jump => some (x, dest, jump)
  | .cDecD x dest jump => some (x, dest, jump)
  | .cDecX x dest jump => some (x, dest, jump)
  | .cAdd x dest jump => some (x, dest, jump)
  | .cSubDX x dest jump => some (x, dest, jump)
  | .cSubXD x dest jump => some (x, dest, jump)
  | .cAnd x dest jump => some (x, dest, jump)
  | .cOr x dest jump => some (x, dest, jump)

/-- The result column of the opcode map (R56) as 16-bit arithmetic, told apart from the exact integers the ALU
computes on; for A.LOAD the Word it loads. -/
def resultOf (i : Instr) (d a x : Word) : Word :=
  match i with
  | .aLoad imm15 => BitVec.ofNat 16 imm15
  | .cZero _ _ _ => 0x0000
  | .cOne _ _ _ => 0x0001
  | .cNeg1 _ _ _ => 0xFFFF
  | .cD _ _ _ => d
  | .cX _ _ _ => x
  | .cNotD _ _ _ => ~~~d
  | .cNotX _ _ _ => ~~~x
  | .cNegD _ _ _ => -d
  | .cNegA _ _ _ => -a
  | .cIncD _ _ _ => d + 1
  | .cIncX _ _ _ => x + 1
  | .cDecD _ _ _ => d - 1
  | .cDecX _ _ _ => x - 1
  | .cAdd _ _ _ => d + x
  | .cSubDX _ _ _ => d - x
  | .cSubXD _ _ _ => x - d
  | .cAnd _ _ _ => d &&& x
  | .cOr _ _ _ => d ||| x

/-- The data read of a compute instruction, if it makes one, is of an address that exists (R33, R123). -/
abbrev Readable (x : XSource) (s : State) : Prop := x = .memM → uval s.a ≤ 0x6000

/-- The data write of a compute instruction, if it makes one, is of a writable address (R34, R124). -/
abbrev Writable (dest : Dest) (s : State) : Prop := dest.m = true → uval s.a ≤ 0x5FFF

/-- The Word a data read of an existing address returns (R33). -/
def dataWord (s : State) (addr : Word) : Word :=
  if uval addr = 0x6000 then kbdWord s
  else if 0x4000 ≤ uval addr then s.fb.readWord (uval addr - 0x4000)
  else s.ram.readWord (uval addr)

/-- X (R80). -/
def operandX (x : XSource) (s : State) : Word :=
  match x with
  | .regA => s.a
  | .memM => dataWord s s.a

/-- The jump table of R58, one row per code, on the signed result. -/
def jumpTaken (jump : Jump) (r : Word) : Bool :=
  match jump with
  | .noj => false
  | .jgt => decide (0 < sval r)
  | .jeq => decide (r = 0x0000)
  | .jge => decide (0 ≤ sval r)
  | .jlt => decide (sval r < 0)
  | .jne => decide (r ≠ 0x0000)
  | .jle => decide (sval r ≤ 0)
  | .jmp => true

/-- The instruction draws a keyboard Word: it reads M at 0x6000 (R38). -/
abbrev DrawsKbd (x : XSource) (s : State) : Prop := x = .memM ∧ uval s.a = 0x6000

/-- What a completed compute instruction with fields `x`, `dest`, `jump` and result `r` makes of `s` (R74, R104 to
R107, R118, R119), and that it leaves everything else as it was: its result, its jump and its frame. -/
structure ComputeEffect (s t : State) (x : XSource) (dest : Dest) (jump : Jump) (r : Word) : Prop where
  /-- A is the result if the A flag is set, else unchanged -/
  regA : t.a = if dest.a then r else s.a
  /-- D is the result if the D flag is set, else unchanged -/
  regD : t.d = if dest.d then r else s.d
  /-- PC is the A of after write-back if the jump is taken, else PC + 1 -/
  pc : t.pc = if jumpTaken jump r then t.a else s.pc + 1
  /-- the Instruction Store is untouched -/
  rom : t.rom = s.rom
  /-- the M flag stores the result at the A of before the step, in RAM -/
  ramStored : dest.m = true → uval s.a ≤ 0x3FFF → t.ram.readWord (uval s.a) = r
  /-- every other cell of RAM is unchanged -/
  ramFrame : ∀ k, ¬ (dest.m = true ∧ uval s.a ≤ 0x3FFF ∧ (k = 2 * uval s.a ∨ k = 2 * uval s.a + 1)) →
    t.ram.readByte k = s.ram.readByte k
  /-- the M flag stores the result at the A of before the step, in the framebuffer -/
  fbStored : dest.m = true → 0x4000 ≤ uval s.a → t.fb.readWord (uval s.a - 0x4000) = r
  /-- every other cell of the framebuffer is unchanged -/
  fbFrame : ∀ k, ¬ (dest.m = true ∧ 0x4000 ≤ uval s.a ∧
      (k = 2 * (uval s.a - 0x4000) ∨ k = 2 * (uval s.a - 0x4000) + 1)) →
    t.fb.readByte k = s.fb.readByte k
  /-- a read of M at 0x6000 takes one presented keyboard Word, nothing else does -/
  kbd : t.kbd = if DrawsKbd x s then s.kbd.tail else s.kbd
  /-- and counts one draw -/
  kbdReads : t.kbdReads = if DrawsKbd x s then s.kbdReads + 1 else s.kbdReads

/-- Everything the spec says of one compute operation at a stroke: `pattern` is its match value under the mask
0x8FC0 (R56), `mk` its constructor, `result` its result from D, A and X. The encoding with its free fields; the
data-read fault and the data-write fault of `41_compute_alu.md`; and, on all other operands, that it completes
with its effect. -/
structure OperationRule (pattern : Word) (mk : XSource → Dest → Jump → Instr)
    (result : Word → Word → Word → Word) : Prop where
  /-- a Word is this instruction if its masked bits are the pattern; the fields are bits 12, 5, 4, 3 and 2..0 -/
  encoding : ∀ w : Word, w &&& 0x8FC0 = pattern → ∃ jump, (codeJump jump = w.extractLsb' 0 3) ∧
    decode w = .ok (mk (if w.getLsbD 12 then .memM else .regA) ⟨w.getLsbD 5, w.getLsbD 4, w.getLsbD 3⟩ jump)
  /-- an address that does not exist faults the read of M, whether or not the operation uses it -/
  readFault : ∀ x dest jump s, ¬ Readable x s →
    exec (mk x dest jump) s = .fault (.badAddress .dataRead s.a (instrWord s))
  /-- an address that cannot be written faults the write of M -/
  writeFault : ∀ x dest jump s, Readable x s → ¬ Writable dest s →
    exec (mk x dest jump) s = .fault (.badAddress .dataWrite s.a (instrWord s))
  /-- otherwise the instruction completes -/
  completes : ∀ x dest jump s, Readable x s → Writable dest s →
    ∃ t, exec (mk x dest jump) s = .next t ∧
      ComputeEffect s t x dest jump (result s.d s.a (operandX x s))

/-- The invariant: every memory is in canonical form and lists only cells that exist (R23, R24, R37). -/
def State.inv (s : State) : Bool :=
  s.rom.wf && s.rom.within 32768 && s.ram.wf && s.ram.within 16384 && s.fb.wf && s.fb.within 8192

/-- When a step completes (R120 to R124): PC is in the Instruction Store, its Word decodes, and the accesses it
makes are of addresses that exist. -/
def State.canStep (s : State) : Bool :=
  decide (uval s.pc ≤ 0x7FFF) &&
  match decode (s.rom.readWord (uval s.pc)) with
  | .error _ => false
  | .ok i =>
    match computeFields i with
    | none => true
    | some (x, dest, _) => decide (Readable x s) && decide (Writable dest s)

/-- A run of `n` steps is safe if none of them faults: faults are terminal for a run (R128, D13). -/
def SafeRun (n : Nat) (s : State) : Prop := ∃ t, Host.Core.run Sys2Proof.core n s = .next t

/-- The end of a run by loop (R147): `ROM[PC]` is the A.LOAD of PC, and the next Word a compute instruction with
`a` = 0, `dest` = 000 and `jump` = 111. -/
def State.atEndLoop (s : State) : Bool :=
  romWord s s.pc == some s.pc &&
  match romWord s (pcPlusOne s.pc) with
  | none => false
  | some w =>
    match decode w with
    | .error _ => false
    | .ok i => computeFields i == some (.regA, ⟨false, false, false⟩, .jmp)

end Sys2Proof.Machine
end

