-- ==== Sys2Proof/Certificates/Slice0/Obligations.lean ====
section
/-! DEFINITION. The statements for the provers, in the order of the spec's files: encoding, step, compute
operations, write-back and jump, memory, faults, reset and host. Each docstring says which rule it formalises; one that
rests on a decision of the spec's own (D1 to D18, `92_eei_decisions.md`) or on a log entry says so. -/

namespace Sys2Proof.Claims

open Sys2Proof.Machine

/-- The 46 illegal `comp` values, as R59 lists them. -/
def illegalComps : List (BitVec 6) :=
  [0b000001#6, 0b000011#6, 0b000100#6, 0b000101#6, 0b000110#6, 0b001000#6, 0b001001#6, 0b001010#6, 0b001011#6] ++
  [0b010000#6, 0b010001#6, 0b010010#6, 0b010100#6, 0b010110#6, 0b010111#6, 0b011000#6, 0b011001#6, 0b011010#6] ++
  [0b011011#6, 0b011100#6, 0b011101#6, 0b011110#6, 0b100000#6, 0b100001#6, 0b100010#6, 0b100011#6, 0b100100#6] ++
  [0b100101#6, 0b100110#6, 0b100111#6, 0b101000#6, 0b101001#6, 0b101011#6, 0b101100#6, 0b101101#6, 0b101110#6] ++
  [0b101111#6, 0b110100#6, 0b110101#6, 0b110110#6, 0b111000#6, 0b111001#6, 0b111011#6, 0b111100#6, 0b111101#6] ++
  [0b111110#6]

/-- The step of `s` fetches the Word `w`: PC is in the Instruction Store and `ROM[PC]` is `w`. -/
abbrev Fetches (s : State) (w : Word) : Prop := uval s.pc ≤ 0x7FFF ∧ s.rom.readWord (uval s.pc) = w

/-- Everything R110 to R117 say of one jump code: its encoding, its condition on every result, and where PC goes
for every compute instruction with that code that completes. -/
structure JumpRule (code : BitVec 3) (jump : Jump) (cond : Word → Prop) : Prop where
  /-- bits 2..0 of a legal compute Word are the code -/
  encoding : ∀ (w : Word) (i : Instr), w.getLsbD 15 = true → decode w = .ok i →
    (w.extractLsb' 0 3 = code ↔ ∃ x dest, computeFields i = some (x, dest, jump))
  /-- `JumpCond` of the code -/
  condition : ∀ r : Word, jumpCond jump r = true ↔ cond r
  /-- a data read of an address that does not exist still faults, whatever the code -/
  readFault : ∀ (i : Instr) (x : XSource) (dest : Dest) (s : State), computeFields i = some (x, dest, jump) →
    ¬ Readable x s → exec i s = .fault (.badAddress .dataRead s.a (instrWord s))
  /-- a completed instruction with the code: PC is the A of after write-back, or PC + 1; ALU and `dest` act as ever -/
  target : ∀ (i : Instr) (x : XSource) (dest : Dest) (s t : State), computeFields i = some (x, dest, jump) →
    exec i s = .next t →
    (cond (resultOf i s.d s.a (operandX x s)) → t.pc = t.a) ∧
    (¬ cond (resultOf i s.d s.a (operandX x s)) → t.pc = s.pc + 1) ∧
    ComputeEffect s t x dest jump (resultOf i s.d s.a (operandX x s))
  /-- the rule's worked example, C.D with `dest` = 000 at PC = 0x0010 with A = 0x0020, for every D: only PC changes -/
  worked : ∀ s : State, Fetches s (0xE300 ||| code.setWidth 16) → s.pc = 0x0010 → s.a = 0x0020 →
    (cond s.d → step s = .next { s with pc := 0x0020 }) ∧ (¬ cond s.d → step s = .next { s with pc := 0x0011 })

/-- One row of R108's table: from A = 3, D = 2 the Word `w` leaves A, D, `RAM[3]` as given and `RAM[5]` untouched. -/
def DestRow (w : Word) (a d : Word) (storesM : Bool) : Prop :=
  ∀ s : State, Fetches s w → s.a = 0x0003 → s.d = 0x0002 → ∃ t, step s = .next t ∧ t.a = a ∧ t.d = d ∧
    t.pc = s.pc + 1 ∧ t.ram.readWord 3 = (if storesM then 0x0005 else s.ram.readWord 3) ∧
    t.ram.readWord 5 = s.ram.readWord 5

end Sys2Proof.Claims

open Sys2Proof Sys2Proof.Machine Sys2Proof.Claims

/-! ### Encoding and the decoder (`30_encoding.md`) -/

/-- The decode procedure (R54 with R51): every Word is an address instruction, a defined compute instruction with the
fields of R52, or rejected, the last exactly for the 46 `comp` values of R59's list. That the last two hold for every
value of bits 14..13 rests on the spec's own decision D2 (log 9). -/
def Obligations.DecodeProcedureTotal : Prop :=
  ∀ w : Word,
    (w.getLsbD 15 = false → decode w = .ok (.aLoad (w &&& 0x7FFF).toNat)) ∧
    (w.getLsbD 15 = true → w.extractLsb' 6 6 ∈ illegalComps → decode w = .error (.badInstruction w)) ∧
    (w.getLsbD 15 = true → w.extractLsb' 6 6 ∉ illegalComps → ∃ i x dest jump,
      decode w = .ok i ∧ w &&& (opcodeRow i).2 = (opcodeRow i).1 ∧ computeFields i = some (x, dest, jump) ∧
      (x = .memM ↔ w.getLsbD 12 = true) ∧ (dest.a = w.getLsbD 5 ∧ dest.d = w.getLsbD 4 ∧ dest.m = w.getLsbD 3) ∧
      codeJump jump = w.extractLsb' 0 3)

/-- Decode and encode agree: no field of any well-formed instruction is dropped. The value the encoder gives bits
14..13 is the model's choice (log 14). -/
def Obligations.DecodeOfEncode : Prop :=
  ∀ i : Instr, WellFormed i = true → decode (encode i) = .ok i

/-- The other direction: a Word that decodes is the encoding of its well-formed instruction, but for bits 14..13 of a
compute Word, which the decoder ignores (D2) and the encoder sets (log 14). -/
def Obligations.EncodeOfDecode : Prop :=
  ∀ (w : Word) (i : Instr), decode w = .ok i →
    WellFormed i = true ∧ encode i = (if w.getLsbD 15 then w ||| 0x6000 else w)

/-- Bits 14..13 of a compute Word: decoding is the same for all four values, and so is the effect of the step that
executes it, in every part of the state but the Word itself in the Instruction Store. Rests on the spec's own
decision D2. -/
def Obligations.Bits14And13Ignored : Prop :=
  ∀ w m : Word, w.getLsbD 15 = true → m &&& 0x9FFF = 0 →
    (∀ i, decode w = .ok i ↔ decode (w ^^^ m) = .ok i) ∧
    ∀ s t : State, Fetches s w → step s = .next t →
      step (s.withFetchWord 16 (w ^^^ m).toNat) =
        .next { t with rom := (s.withFetchWord 16 (w ^^^ m).toNat).rom }

/-- Sanity: Words written out bit by bit from R51, R52 and R56, one at least of every family. -/
def Obligations.SampleWordsDecode : Prop :=
  decode 0b0110000000000000#16 = .ok (.aLoad 24576) ∧
  decode 0b1110101010010000#16 = .ok (.cZero .regA ⟨false, true, false⟩ .noj) ∧
  decode 0b1110001100001000#16 = .ok (.cD .regA ⟨false, false, true⟩ .noj) ∧
  decode 0b1111110011010000#16 = .ok (.cNegA .memM ⟨false, true, false⟩ .noj) ∧
  decode 0b1111110010101000#16 = .ok (.cDecX .memM ⟨true, false, true⟩ .noj) ∧
  decode 0b1110000010010010#16 = .ok (.cAdd .regA ⟨false, true, false⟩ .jeq) ∧
  decode 0b1111010101001000#16 = .ok (.cOr .memM ⟨false, false, true⟩ .noj) ∧
  decode 0b1110101010000111#16 = .ok (.cZero .regA ⟨false, false, false⟩ .jmp)

/-! ### The step and the address instruction (`40_step_and_address_instruction.md`) -/

/-- A step runs the decoded instruction, and adds nothing around it. -/
def Obligations.StepRunsDecoded : Prop :=
  ∀ (s : State) (w : Word) (i : Instr), Fetches s w → decode w = .ok i → step s = exec i s

/-- The address instruction (R73, on immediates 0..32767): every Word with bit 15 clear sets A to its low 15 bits,
advances PC by one, and changes nothing else; A.LOAD completes for every immediate and from every state; at PC = 0x7FFF
PC becomes 0x8000 and the next step faults. That exec reduces an immediate above 32767, which no Word encodes, modulo
65536 is the model's choice (log 15). -/
def Obligations.AddressInstruction : Prop :=
  (∀ (imm15 : Nat) (s : State),
    exec (.aLoad imm15) s = .next { s with a := BitVec.ofNat 16 imm15, pc := s.pc + 1 }) ∧
  (∀ (s : State) (w : Word), Fetches s w → w.getLsbD 15 = false →
    step s = .next { s with a := w &&& 0x7FFF, pc := s.pc + 1 } ∧
    (s.pc = 0x7FFF →
      step { s with a := w &&& 0x7FFF, pc := s.pc + 1 } = .fault (.badAddress .fetch 0x8000 none)))

/-- R75: the registers a step leaves, or its fault, depend on A, D, PC, the Word fetched and, if the instruction
reads M, the Word read, and on nothing else of the state. When M is read is the spec's own decision D3, that a read of
0x6000 returns a free Word is D12 (log 9, log 5). -/
def Obligations.StepDependsOnlyOnItsInputs : Prop :=
  ∀ s1 s2 : State, s1.a = s2.a → s1.d = s2.d → s1.pc = s2.pc → romWord s1 s1.pc = romWord s2 s2.pc →
    (∀ w i dest jump, romWord s1 s1.pc = some w → decode w = .ok i → computeFields i = some (.memM, dest, jump) →
      dataWord s1 s1.a = dataWord s2 s2.a) →
    (∀ f, step s1 = .fault f ↔ step s2 = .fault f) ∧
    (∀ t1, step s1 = .next t1 → ∃ t2, step s2 = .next t2 ∧ t1.a = t2.a ∧ t1.d = t2.d ∧ t1.pc = t2.pc)

/-! ### The compute operations (`41_compute_alu.md`)

Each OperationRule states, for one instruction: its encoding; that it faults on an `a` = 1 read of an address that
does not exist, used or not (D3); that it faults on a write that is not allowed, 0x6000 among them (D5); and that on
all other operands it completes with the result, write-back, jump and frame of ComputeEffect. -/

/-- C.ZERO, C.ONE, C.NEG1 (R82 to R84). The read faults rest on D3, the write fault at 0x6000 on D5. -/
def Obligations.ConstantOperations : Prop :=
  OperationRule 0x8A80 .cZero (fun _ _ _ => 0x0000) ∧
  OperationRule 0x8FC0 .cOne (fun _ _ _ => 0x0001) ∧
  OperationRule 0x8E80 .cNeg1 (fun _ _ _ => 0xFFFF)

/-- C.D, C.X, C.NOTD, C.NOTX (R85 to R88). The read faults rest on D3, the write fault at 0x6000 on D5. -/
def Obligations.MoveAndComplementOperations : Prop :=
  OperationRule 0x8300 .cD (fun d _ _ => d) ∧
  OperationRule 0x8C00 .cX (fun _ _ x => x) ∧
  OperationRule 0x8340 .cNotD (fun d _ _ => ~~~d) ∧
  OperationRule 0x8C40 .cNotX (fun _ _ x => ~~~x)

/-- C.NEGD, C.NEGA (R89, R90): C.NEGA negates A for both values of `a`. The reduction to 16 bits rests on D1, the
read faults on D3, the write fault at 0x6000 on D5. -/
def Obligations.NegationOperations : Prop :=
  OperationRule 0x83C0 .cNegD (fun d _ _ => wrap16 (-sval d)) ∧
  OperationRule 0x8CC0 .cNegA (fun _ a _ => wrap16 (-sval a))

/-- C.INCD, C.INCX, C.DECD, C.DECX (R91 to R94). The reduction to 16 bits rests on D1, the read faults on D3, the
write fault at 0x6000 on D5. -/
def Obligations.IncrementAndDecrementOperations : Prop :=
  OperationRule 0x87C0 .cIncD (fun d _ _ => wrap16 (sval d + 1)) ∧
  OperationRule 0x8DC0 .cIncX (fun _ _ x => wrap16 (sval x + 1)) ∧
  OperationRule 0x8380 .cDecD (fun d _ _ => wrap16 (sval d - 1)) ∧
  OperationRule 0x8C80 .cDecX (fun _ _ x => wrap16 (sval x - 1))

/-- C.ADD, C.SUBDX, C.SUBXD (R95 to R97). The reduction to 16 bits rests on D1, the read faults on D3, the write
fault at 0x6000 on D5. -/
def Obligations.AddAndSubtractOperations : Prop :=
  OperationRule 0x8080 .cAdd (fun d _ x => wrap16 (sval d + sval x)) ∧
  OperationRule 0x84C0 .cSubDX (fun d _ x => wrap16 (sval d - sval x)) ∧
  OperationRule 0x81C0 .cSubXD (fun d _ x => wrap16 (sval x - sval d))

/-- C.AND, C.OR (R98, R99): bit `i` of the result is the conjunction or disjunction of bits `i`. The read faults
rest on D3, the write fault at 0x6000 on D5. -/
def Obligations.BitwiseOperations : Prop :=
  OperationRule 0x8000 .cAnd (fun d _ x => d &&& x) ∧
  OperationRule 0x8540 .cOr (fun d _ x => d ||| x) ∧
  ∀ (d a x : Word) (i : Nat), (aluAnd d a x).getLsbD i = (d.getLsbD i && x.getLsbD i) ∧
    (aluOr d a x).getLsbD i = (d.getLsbD i || x.getLsbD i)

/-- R100: the arithmetic operations give the same bits whether the operands are read as signed or unsigned, the
result differs from the exact one by a multiple of 65536, and the listed overflow corners wrap. Rests on the spec's own
decision D1. -/
def Obligations.ArithmeticWrapsAndIgnoresSign : Prop :=
  (∀ d a x : Word,
    aluAdd d a x = BitVec.ofNat 16 (uval d + uval x) ∧
    aluSubDX d a x = wrap16 ((uval d : Int) - uval x) ∧
    aluSubXD d a x = wrap16 ((uval x : Int) - uval d) ∧
    aluIncD d a x = wrap16 ((uval d : Int) + 1) ∧ aluIncX d a x = wrap16 ((uval x : Int) + 1) ∧
    aluDecD d a x = wrap16 ((uval d : Int) - 1) ∧ aluDecX d a x = wrap16 ((uval x : Int) - 1) ∧
    aluNegD d a x = wrap16 (-(uval d : Int)) ∧ aluNegA d a x = wrap16 (-(uval a : Int))) ∧
  (∀ n : Int, (65536 : Int) ∣ (sval (wrap16 n) - n) ∧ -32768 ≤ sval (wrap16 n) ∧ sval (wrap16 n) ≤ 32767) ∧
  (∀ a x : Word, sval (aluNegD 0x8000 a x) = -32768 ∧ sval (aluIncD 0x7FFF a x) = -32768 ∧
    sval (aluDecD 0x8000 a x) = 32767)

/-! ### Write-back and jump (`42_writeback_and_jump.md`) -/

/-- The eight jump codes (R110 to R117). Rests on the spec's own decisions D1 (the condition is on the reduced
result) and D3 (the read fault, for an operation that does not use X too), which log 9 follows, and on log 5 (the
keyboard fields of the effect). -/
def Obligations.JumpCodes : Prop :=
  JumpRule 0b000#3 .noj (fun _ => False) ∧
  JumpRule 0b001#3 .jgt (fun r => 0 < sval r) ∧
  JumpRule 0b010#3 .jeq (fun r => r = 0x0000) ∧
  JumpRule 0b011#3 .jge (fun r => 0 ≤ sval r ∧ r.getLsbD 15 = false) ∧
  JumpRule 0b100#3 .jlt (fun r => sval r < 0 ∧ r.getLsbD 15 = true) ∧
  JumpRule 0b101#3 .jne (fun r => r ≠ 0x0000) ∧
  JumpRule 0b110#3 .jle (fun r => sval r ≤ 0) ∧
  JumpRule 0b111#3 .jmp (fun _ => True)

/-- The taken jump (R118): it goes to the A of after write-back, all 16 bits of it: the result if the same
instruction writes A, else the A of before. Nothing is saved anywhere: D, every cell of memory and every other part of
the state is what ComputeEffect says of the instruction's flags and result, for the flagged forms too. A target outside
the Instruction Store faults only at the next step. Rests on the spec's own decisions D1 (the condition is on the
reduced result) and D6 (the bound is checked at the next fetch), which log 9 follows, and on log 5 (the keyboard
fields of the effect). -/
def Obligations.TakenJumpGoesToNewA : Prop :=
  ∀ (i : Instr) (x : XSource) (dest : Dest) (jump : Jump) (s t : State), computeFields i = some (x, dest, jump) →
    exec i s = .next t → jumpTaken jump (resultOf i s.d s.a (operandX x s)) = true →
    t.pc = (if dest.a then resultOf i s.d s.a (operandX x s) else s.a) ∧ t.pc = t.a ∧
    (dest.d = false → t.d = s.d) ∧ (dest.m = false → t.ram = s.ram ∧ t.fb = s.fb) ∧
    ComputeEffect s t x dest jump (resultOf i s.d s.a (operandX x s)) ∧
    (0x7FFF < uval t.pc → step t = .fault (.badAddress .fetch t.pc none))

/-- R108: all eight `dest` values on one example, C.ADD with A = 3 and D = 2; the cell written is the old A's. -/
def Obligations.DestFlagsTable : Prop :=
  DestRow 0xE080 0x0003 0x0002 false ∧ DestRow 0xE088 0x0003 0x0002 true ∧
  DestRow 0xE090 0x0003 0x0005 false ∧ DestRow 0xE098 0x0003 0x0005 true ∧
  DestRow 0xE0A0 0x0005 0x0002 false ∧ DestRow 0xE0A8 0x0005 0x0002 true ∧
  DestRow 0xE0B0 0x0005 0x0005 false ∧ DestRow 0xE0B8 0x0005 0x0005 true

/-- R14, R15: D changes only by a compute instruction with the D flag; A only by A.LOAD or a compute instruction with
the A flag. -/
def Obligations.WhoWritesAAndD : Prop :=
  ∀ (i : Instr) (s t : State), exec i s = .next t →
    (t.d ≠ s.d → ∃ x dest jump, computeFields i = some (x, dest, jump) ∧ dest.d = true) ∧
    (t.a ≠ s.a → (∃ imm15, i = .aLoad imm15) ∨
      ∃ x dest jump, computeFields i = some (x, dest, jump) ∧ dest.a = true)

/-! ### Memory (`20_memory.md`) -/

/-- R31: the Instruction Store answers exactly the addresses up to 0x7FFF, and anything else is BadAddress(fetch) with
no instruction Word; a fetch has no side effect, since it gives no state; the one fetch of a step is at PC. -/
def Obligations.FetchReadsInstructionStore : Prop :=
  ∀ (s : State) (addr : Word),
    (uval addr ≤ 0x7FFF → ifetch addr s = .ok (s.rom.readWord (uval addr))) ∧
    (0x7FFF < uval addr → ifetch addr s = .error (.badAddress .fetch addr none)) ∧
    (∀ f, ifetch s.pc s = .error f → step s = .fault f) ∧
    (∀ w i, ifetch s.pc s = .ok w → decode w = .ok i → step s = exec i s) ∧
    (∀ w e, ifetch s.pc s = .ok w → decode w = .error e → step s = .fault (.badInstruction w))

/-- R33: the dispatcher's read, region by region. A keyboard read takes the next presented Word and changes nothing
else; the other reads change nothing. What stands behind the framebuffer and keyboard ports is the spec's own decision
(D11, D12), the form of the keyboard draw the model's (log 5). -/
def Obligations.DispatcherRead : Prop :=
  ∀ (s : State) (addr : Word),
    (uval addr = 0x6000 →
      memRead addr s = .ok (kbdWord s, { s with kbd := s.kbd.tail, kbdReads := s.kbdReads + 1 })) ∧
    (0x4000 ≤ uval addr → uval addr ≤ 0x5FFF → memRead addr s = .ok (s.fb.readWord (uval addr - 0x4000), s)) ∧
    (uval addr ≤ 0x3FFF → memRead addr s = .ok (s.ram.readWord (uval addr), s)) ∧
    (0x6000 < uval addr → memRead addr s = .error (.badAddress .dataRead addr (instrWord s)))

/-- R34: the dispatcher's write stores all 16 bits in one Word of RAM or of the framebuffer, and leaves every other
cell, every register and the Instruction Store alone; from 0x6000 on it is BadAddress. That 0x6000 itself is rejected
is the spec's own decision D5. -/
def Obligations.DispatcherWrite : Prop :=
  ∀ (s : State) (addr v : Word),
    (uval addr ≤ 0x3FFF → ∃ m, memWrite addr v s = .ok { s with ram := m } ∧ m.readWord (uval addr) = v ∧
      ∀ k, ¬ (k = 2 * uval addr ∨ k = 2 * uval addr + 1) → m.readByte k = s.ram.readByte k) ∧
    (0x4000 ≤ uval addr → uval addr ≤ 0x5FFF → ∃ m, memWrite addr v s = .ok { s with fb := m } ∧
      m.readWord (uval addr - 0x4000) = v ∧
      ∀ k, ¬ (k = 2 * (uval addr - 0x4000) ∨ k = 2 * (uval addr - 0x4000) + 1) →
        m.readByte k = s.fb.readByte k) ∧
    (0x6000 ≤ uval addr → memWrite addr v s = .error (.badAddress .dataWrite addr (instrWord s)))

/-- R36, R37, R46(c): a read returns the Word most recently written to its address, and a write changes no other
address's Word. The framebuffer's half rests on the spec's own decision D11. -/
def Obligations.ReadReturnsLatestWrite : Prop :=
  ∀ (s t : State) (addr v : Word), memWrite addr v s = .ok t →
    memRead addr t = .ok (v, t) ∧
    ∀ (other w : Word), other ≠ addr → uval other ≤ 0x5FFF → memRead other s = .ok (w, s) →
      memRead other t = .ok (w, t)

/-- R38: an instruction that reads M at 0x6000 gets the Word the input side presents, whichever it is, and the next
read the next one; with none presented it gets the free Word of its draw, of which nothing is known. Rests on the
spec's own decision D12 and log 5. -/
def Obligations.KeyboardReadDrawsNextWord : Prop :=
  ∀ s : State, uval s.a = 0x6000 →
    (∀ v rest, s.kbd = v :: rest → exec (.cX .memM ⟨false, true, false⟩ .noj) s =
      .next { s with d := v, pc := s.pc + 1, kbd := rest, kbdReads := s.kbdReads + 1 }) ∧
    (s.kbd = [] → exec (.cX .memM ⟨false, true, false⟩ .noj) s =
      .next { s with d := Config.kbdStream s.kbdReads, pc := s.pc + 1, kbd := [], kbdReads := s.kbdReads + 1 })

/-- R48: no instruction and no step changes the Instruction Store, no data write is ever seen by a fetch, and of the
host's actions only loading changes the store. -/
def Obligations.StoresAreNeverFetched : Prop :=
  (∀ s t : State, step s = .next t → t.rom = s.rom) ∧
  (∀ (i : Instr) (s t : State), exec i s = .next t → t.rom = s.rom) ∧
  (∀ (s t : State) (i v : Word), s.resetEvent.rom = s.rom ∧ s.memoryClear.rom = s.rom ∧
    (∀ ws, (s.presentKeyboard ws).rom = s.rom) ∧ (s.hostWriteRam i v = some t → t.rom = s.rom)) ∧
  (∀ (s t : State) (addr v : Word), memWrite addr v s = .ok t → ∀ p, ifetch p t = ifetch p s)

/-- R43: whatever a step executes, it writes at most the one data Word at the A of before the step; every other cell
of RAM and framebuffer reads as before. -/
def Obligations.StepWritesOnlyTheWordAtA : Prop :=
  ∀ s t : State, step s = .next t →
    (∀ k, ¬ (k = 2 * uval s.a ∨ k = 2 * uval s.a + 1) → t.ram.readByte k = s.ram.readByte k) ∧
    (∀ k, ¬ (0x4000 ≤ uval s.a ∧ (k = 2 * (uval s.a - 0x4000) ∨ k = 2 * (uval s.a - 0x4000) + 1)) →
      t.fb.readByte k = s.fb.readByte k)

/-- The invariant of the model: every memory stays in canonical form and lists only cells that exist. The form is
the model's (log 4), the sizes are R23, R24, R37. -/
def Obligations.StepKeepsInvariant : Prop :=
  ∀ s t : State, s.inv = true → step s = .next t → t.inv = true

/-- The invariant along every run from every state that meets it; and no run changes the Instruction Store (R48). -/
def Obligations.RunsKeepInvariantAndStore : Prop :=
  ∀ (n : Nat) (s t : State), Host.Core.run Sys2Proof.core n s = .next t →
    (s.inv = true → t.inv = true) ∧ t.rom = s.rom

/-- R37: the pixel rows and columns cover the framebuffer's addresses and stay inside them. -/
def Obligations.PixelsCoverFramebuffer : Prop :=
  (∀ r c : Nat, r < 256 → c < 512 → 0x4000 ≤ pixelAddress r c ∧ pixelAddress r c ≤ 0x5FFF) ∧
  (∀ addr : Nat, 0x4000 ≤ addr → addr ≤ 0x5FFF → ∃ r c, r < 256 ∧ c < 512 ∧ pixelAddress r c = addr)

/-! ### Faults (`60_exceptions.md`) -/

/-- The fetch fault (R121): BadAddress(fetch) exactly when PC is outside the Instruction Store, recording the address; and PC gets
there in two ways only: a step at 0x7FFF that moved to 0x8000, or a taken jump that copied an A with bit 15 set.
Reset and power-on set PC to 0, and no other action of the host writes PC. That PC can leave the store and that the
bound is checked at the next fetch is the spec's own decision D6, what the host can do its decision D17 (log 9). -/
def Obligations.FetchFaultAndItsTwoCauses : Prop :=
  (∀ s : State, 0x7FFF < uval s.pc → step s = .fault (.badAddress .fetch s.pc none)) ∧
  (∀ (s : State) (addr : Word) (w : Option Word), step s = .fault (.badAddress .fetch addr w) →
    0x7FFF < uval s.pc ∧ addr = s.pc ∧ w = none) ∧
  (∀ s t : State, step s = .next t → 0x7FFF < uval t.pc →
    (s.pc = 0x7FFF ∧ t.pc = 0x8000) ∨
    (t.pc = t.a ∧ t.a.getLsbD 15 = true ∧ ∃ i x dest jump, decode (s.rom.readWord (uval s.pc)) = .ok i ∧
      computeFields i = some (x, dest, jump) ∧
      jumpTaken jump (resultOf i s.d s.a (operandX x s)) = true)) ∧
  (∀ s : State, s.resetEvent.pc = 0) ∧
  (∀ a d rom ram fb kbd n, (State.powerOn a d rom ram fb kbd n).pc = 0) ∧
  (∀ s t : State, s.memoryClear.pc = s.pc ∧ (∀ ws, (s.presentKeyboard ws).pc = s.pc) ∧
    (∀ i v, s.hostWriteRam i v = some t → t.pc = s.pc) ∧ (∀ romFill ws, s.loadProgram romFill ws = some t → t.pc = s.pc))

/-- R125: of the faults that apply to one step the first in the order fetch, BadInstruction, data-read, data-write is
reported, with the record of R126. The order of BadInstruction and data-read is the spec's own decision D4; that a
read not needed by its operation faults is D3, that a write to 0x6000 does is D5 (R123, R124; log 9). -/
def Obligations.FaultPriority : Prop :=
  ∀ s : State,
    (0x7FFF < uval s.pc → step s = .fault (.badAddress .fetch s.pc none)) ∧
    (∀ w e, Fetches s w → decode w = .error e → step s = .fault (.badInstruction w)) ∧
    (∀ w i x dest jump, Fetches s w → decode w = .ok i → computeFields i = some (x, dest, jump) →
      ¬ Readable x s → step s = .fault (.badAddress .dataRead s.a (some w))) ∧
    (∀ w i x dest jump, Fetches s w → decode w = .ok i → computeFields i = some (x, dest, jump) →
      Readable x s → ¬ Writable dest s → step s = .fault (.badAddress .dataWrite s.a (some w)))

/-- R120: a step completes exactly when none of the four causes applies; otherwise it faults; it never stops for
want of a meaning. The causes rest on the spec's own decisions D3, D5, D6 (log 9); that an access to a device never
fails rests on D11 and D12 (log 7, log 6). -/
def Obligations.StepCompletesUnlessACauseApplies : Prop :=
  ∀ s : State, ((∃ t, step s = .next t) ↔ s.canStep = true) ∧
    (s.canStep = false → ∃ f, step s = .fault f) ∧ (∀ r, step s ≠ .refused r)

/-! ### Reset, host and the end of a run (`70_reset_and_hazards.md`) -/

/-- R140: the reset event sets PC to 0 and changes nothing else; the next step fetches `ROM[0]`. That A and D survive
is the spec's own decision D8. -/
def Obligations.ResetEventSetsOnlyPc : Prop :=
  ∀ s : State, s.resetEvent = { s with pc := 0 } ∧
    ifetch s.resetEvent.pc s.resetEvent = .ok (s.rom.readWord 0)

/-- The state after reset on a new machine: PC = 0 is the spec's (R26); A = D = 0 (log 1), RAM and framebuffer
reading 0 (log 2) and the Instruction Store reading 0 (log 3) are the model's choices for open parameters. At
power-on every other part is the argument given. -/
def Obligations.ResetAndPowerOnState : Prop :=
  (State.reset.pc = 0 ∧ State.reset.a = 0 ∧ State.reset.d = 0 ∧
    ∀ i, State.reset.ram.readWord i = 0 ∧ State.reset.fb.readWord i = 0 ∧ State.reset.rom.readWord i = 0) ∧
  ∀ (a d : Word) (rom ram fb : Memory) (kbd : List Word) (n : Nat),
    (State.powerOn a d rom ram fb kbd n).pc = 0 ∧ (State.powerOn a d rom ram fb kbd n).a = a ∧
    (State.powerOn a d rom ram fb kbd n).d = d ∧ (State.powerOn a d rom ram fb kbd n).ram = ram ∧
    (State.powerOn a d rom ram fb kbd n).fb = fb ∧ (State.powerOn a d rom ram fb kbd n).rom = rom

/-- The invariant holds after reset. -/
def Obligations.ResetMeetsInvariant : Prop := State.reset.inv = true

/-- Every host action keeps the invariant. What loading, memory clear and host writes do rests on the spec's own
decisions D10 and D17 and on log 10 and log 11. -/
def Obligations.HostActionsKeepInvariant : Prop :=
  ∀ s : State, s.inv = true →
    s.resetEvent.inv = true ∧ s.memoryClear.inv = true ∧ (∀ ws, (s.presentKeyboard ws).inv = true) ∧
    (∀ i v t, s.hostWriteRam i v = some t → t.inv = true) ∧
    (∀ romFill ws t, s.loadProgram romFill ws = some t → t.inv = true) ∧
    (∀ nbits w, (s.withFetchWord nbits w).inv = true)

/-- The program text (R60, R141). A loaded line is exactly 16 characters 0 or 1, its first character bit 15; line `n`
is `ROM[n]`, from 0 on; every cell past the last line holds ROM_FILL, whichever Word that is (R8, D10; log 3); a line
that does not parse is a fatal load error; loading changes nothing but the store. That a blank or comment line does
not parse and that an empty text loads are the model's choices (log 10). -/
def Obligations.LoadTextPlacesLines : Prop :=
  (∀ (line : List Char) (w : Word), parseLine line = some w ↔
    line.length = 16 ∧ ∀ k, k < 16 → line.getD k ' ' = (if w.getLsbD (15 - k) then '1' else '0')) ∧
  (∀ (romFill : Word) (lines : List (List Char)) (s t : State), s.loadText romFill lines = some t →
    t = { s with rom := t.rom } ∧
    (∀ (n : Nat) (line : List Char), (lines.drop n).head? = some line →
      parseLine line = some (t.rom.readWord n)) ∧
    ∀ n : Nat, lines.length ≤ n → n < 32768 → t.rom.readWord n = romFill) ∧
  (∀ (romFill : Word) (lines : List (List Char)) (line : List Char) (s : State), line ∈ lines →
    parseLine line = none → s.loadText romFill lines = none) ∧
  (∀ (romFill : Word) (lines : List (List Char)) (s : State), lines.length ≤ 32768 →
    (∀ line ∈ lines, parseLine line ≠ none) → ∃ t, s.loadText romFill lines = some t)

/-- Memory clear and host writes (R144). That memory clear sets every RAM Word to 0 is the spec's own decision D17;
that it leaves the framebuffer as it was, which D17 does not decide, is the model's choice (log 11). A host write sets
one RAM Word and touches nothing else. -/
def Obligations.HostMemoryActions : Prop :=
  ∀ s : State,
    (∃ m, s.memoryClear = { s with ram := m } ∧ ∀ i, m.readWord i = 0) ∧
    (∀ i v : Word, uval i ≤ 0x3FFF → ∃ m, s.hostWriteRam i v = some { s with ram := m } ∧
      m.readWord (uval i) = v ∧ ∀ j, j ≠ uval i → m.readWord j = s.ram.readWord j) ∧
    (∀ i v : Word, 0x3FFF < uval i → s.hostWriteRam i v = none)

/-- R147: from a state at the end of a run by loop, every second step, for ever, is again at the same PC with A = PC,
and D, RAM, framebuffer and Instruction Store are unchanged. The convention is the spec's own decision D18. -/
def Obligations.EndLoopIsFinal : Prop :=
  ∀ (n : Nat) (s : State), s.atEndLoop = true →
    ∃ t, Host.Core.run Sys2Proof.core (2 * (n + 1)) s = .next t ∧ t = { s with a := s.pc } ∧ t.atEndLoop = true

/-! ### The fetch and the choice of format (`40_step_and_address_instruction.md`) -/

/-- R71: the fetch reads the Word at PC, PC as it is when the step starts, and is the only access the step makes to
the Instruction Store: with any other contents in every other cell, the Word at PC + 1 among them, the step ends
alike. With PC outside the store it faults whatever the store holds. -/
def Obligations.FetchIsTheOnlyStoreAccess : Prop :=
  ∀ (s : State) (rom : Memory),
    (0x7FFF < uval s.pc → step { s with rom := rom } = .fault (.badAddress .fetch s.pc none)) ∧
    (rom.readWord (uval s.pc) = s.rom.readWord (uval s.pc) →
      (∀ t, step s = .next t → step { s with rom := rom } = .next { t with rom := rom }) ∧
      (∀ f, step s = .fault f → step { s with rom := rom } = .fault f))

/-- R72: of the Words that decode, bit 15 alone says which format an instruction has; and no part of the state but
the Word fetched takes part in decoding it. -/
def Obligations.Bit15SelectsFormat : Prop :=
  (∀ (w : Word) (i : Instr), decode w = .ok i →
    (w.getLsbD 15 = false ↔ ∃ imm15, i = .aLoad imm15) ∧
    (w.getLsbD 15 = true ↔ ∃ x dest jump, computeFields i = some (x, dest, jump))) ∧
  (∀ (s1 s2 : State) (w : Word), Fetches s1 w → Fetches s2 w → fetchDecode s1 = fetchDecode s2)
end

