-- ==== Sys2Proof/Laws/Alu.lean ====
section
/-! SUPPORT. Each arithmetic operation, computed on exact integers and reduced once, is the 16-bit operation. -/

namespace Sys2Proof.Machine

variable (d a x : Word)

theorem aluZero_eq : aluZero d a x = 0x0000 := rfl
theorem aluOne_eq : aluOne d a x = 0x0001 := rfl
theorem aluNeg1_eq : aluNeg1 d a x = 0xFFFF := rfl

theorem aluNegD_eq : aluNegD d a x = -d := by
  simp [aluNegD, wrap16, sval, BitVec.ofInt_neg]

theorem aluNegA_eq : aluNegA d a x = -a := by
  simp [aluNegA, wrap16, sval, BitVec.ofInt_neg]

theorem aluIncD_eq : aluIncD d a x = d + 1 := by
  simp [aluIncD, wrap16, sval, BitVec.ofInt_add]

theorem aluIncX_eq : aluIncX d a x = x + 1 := by
  simp [aluIncX, wrap16, sval, BitVec.ofInt_add]

theorem aluAdd_eq : aluAdd d a x = d + x := by
  simp [aluAdd, wrap16, sval, BitVec.ofInt_add]

theorem aluSubDX_eq : aluSubDX d a x = d - x := by
  simp [aluSubDX, wrap16, sval, Int.sub_eq_add_neg, BitVec.ofInt_add, BitVec.ofInt_neg, BitVec.sub_eq_add_neg]

theorem aluSubXD_eq : aluSubXD d a x = x - d := aluSubDX_eq x a d

theorem aluDecD_eq : aluDecD d a x = d - 1 := aluSubDX_eq d a 1

theorem aluDecX_eq : aluDecX d a x = x - 1 := aluSubDX_eq x a 1

end Sys2Proof.Machine
end

