-- ==== Sys2Proof/Laws/Memory.lean ====
section
/-! SUPPORT. The laws of memory: a read after a write, what a write leaves alone, and that every operation keeps
the canonical form and the bound on addresses. -/

namespace Sys2Proof.Machine

@[simp] theorem Memory.readByte_nil (k : Nat) : Memory.readByte [] k = Config.unlistedByte := rfl

theorem Memory.readByte_cons (c : Host.Cell) (m : Memory) (k : Nat) :
    Memory.readByte (c :: m) k = if k = c.1 then c.2 else Memory.readByte m k := rfl

theorem Memory.readByte_insert (m : Memory) (k j : Nat) (b : Byte) :
    (Memory.insert m k b).readByte j = if j = k then b else m.readByte j := by
  induction m with
  | nil => simp [Memory.insert, Memory.readByte_cons]
  | cons c rest ih =>
    obtain ⟨i, v⟩ := c
    simp only [Memory.insert]
    split
    · simp [Memory.readByte_cons]
    · split
      · next h => subst h; by_cases hj : j = k <;> simp [Memory.readByte_cons, hj]
      · next h =>
        simp only [Memory.readByte_cons, ih]
        by_cases hj : j = i
        · have : j ≠ k := by omega
          simp [hj, show i ≠ k by omega]
        · simp [hj]

theorem Memory.readByte_filter (m : Memory) (k j : Nat) :
    Memory.readByte (m.filter (fun c => c.1 != k)) j = if j = k then Config.unlistedByte else m.readByte j := by
  induction m with
  | nil => simp
  | cons c rest ih =>
    by_cases hc : c.1 = k
    · by_cases hj : j = k <;> simp_all [Memory.readByte_cons]
    · by_cases hj : j = c.1
      · simp [Memory.readByte_cons, hc, hj]
      · simp [Memory.readByte_cons, hc, hj, ih]

/-- One cell after a write: the written value there, the old one everywhere else. -/
theorem Memory.readByte_writeByte (m : Memory) (k j : Nat) (b : Byte) :
    (m.writeByte k b).readByte j = if j = k then b else m.readByte j := by
  unfold Memory.writeByte
  split
  · next h => rw [Memory.readByte_filter, h]
  · exact Memory.readByte_insert m k j b

theorem wordOfBytes_hi_lo (w : Word) : wordOfBytes (hiByte w) (loByte w) = w := by
  unfold wordOfBytes hiByte loByte
  apply BitVec.eq_of_getLsbD_eq
  intro i hi
  simp only [BitVec.getLsbD_append, BitVec.getLsbD_extractLsb']
  by_cases h : i < 8
  · simp [h]
  · simp [h, show i - 8 < 8 by omega, show 8 + (i - 8) = i by omega]

/-- One cell after a Word's write. -/
theorem Memory.readByte_writeWord (m : Memory) (i k : Nat) (w : Word) :
    (m.writeWord i w).readByte k =
      if k = 2 * i + 1 then hiByte w else if k = 2 * i then loByte w else m.readByte k := by
  simp [Memory.writeWord, Memory.readByte_writeByte]

/-- A write of one Word leaves every other cell alone. -/
theorem Memory.readByte_writeWord_frame (m : Memory) (i k : Nat) (w : Word)
    (h : ¬ (k = 2 * i ∨ k = 2 * i + 1)) : (m.writeWord i w).readByte k = m.readByte k := by
  rw [Memory.readByte_writeWord, if_neg (by omega), if_neg (by omega)]

/-- One Word after a write: the written Word there, the old one everywhere else. -/
theorem Memory.readWord_writeWord (m : Memory) (i j : Nat) (w : Word) :
    (m.writeWord i w).readWord j = if j = i then w else m.readWord j := by
  unfold Memory.readWord
  rw [Memory.readByte_writeWord, Memory.readByte_writeWord]
  by_cases h : j = i
  · subst h
    simp [wordOfBytes_hi_lo]
  · rw [if_neg (by omega), if_neg (by omega), if_neg (by omega), if_neg (by omega), if_neg h]

@[simp] theorem Memory.readWord_writeWord_same (m : Memory) (i : Nat) (w : Word) :
    (m.writeWord i w).readWord i = w := by
  rw [Memory.readWord_writeWord, if_pos rfl]

theorem Memory.readWord_writeWord_other (m : Memory) (i j : Nat) (w : Word) (h : j ≠ i) :
    (m.writeWord i w).readWord j = m.readWord j := by
  rw [Memory.readWord_writeWord, if_neg h]

theorem Memory.wfFrom_mono {lo lo' : Nat} (h : lo' ≤ lo) {m : Memory} (hm : Memory.wfFrom lo m = true) :
    Memory.wfFrom lo' m = true := by
  cases m with
  | nil => rfl
  | cons c rest =>
    obtain ⟨k, b⟩ := c
    simp only [Memory.wfFrom, Bool.and_eq_true, decide_eq_true_eq] at hm ⊢
    exact ⟨⟨by omega, hm.1.2⟩, hm.2⟩

theorem Memory.wfFrom_insert {m : Memory} {k : Nat} {b : Byte} (hb : b ≠ Config.unlistedByte) :
    ∀ {lo : Nat}, lo ≤ k → Memory.wfFrom lo m = true → Memory.wfFrom lo (Memory.insert m k b) = true := by
  induction m with
  | nil => intro lo hlo _; simp [Memory.insert, Memory.wfFrom, hlo, hb]
  | cons c rest ih =>
    intro lo hlo hm
    obtain ⟨i, v⟩ := c
    simp only [Memory.wfFrom, Bool.and_eq_true, decide_eq_true_eq] at hm
    simp only [Memory.insert]
    split
    · simp only [Memory.wfFrom, Bool.and_eq_true, decide_eq_true_eq, bne_iff_ne]
      exact ⟨⟨hlo, hb⟩, ⟨by omega, by simpa using hm.1.2⟩, hm.2⟩
    · split
      · next h =>
        subst h
        simp only [Memory.wfFrom, Bool.and_eq_true, decide_eq_true_eq, bne_iff_ne]
        exact ⟨⟨hlo, hb⟩, hm.2⟩
      · simp only [Memory.wfFrom, Bool.and_eq_true, decide_eq_true_eq]
        exact ⟨hm.1, ih (by omega) hm.2⟩

theorem Memory.wfFrom_filter {m : Memory} {k : Nat} :
    ∀ {lo : Nat}, Memory.wfFrom lo m = true → Memory.wfFrom lo (m.filter (fun c => c.1 != k)) = true := by
  induction m with
  | nil => intro _ h; exact h
  | cons c rest ih =>
    intro lo hm
    obtain ⟨i, v⟩ := c
    simp only [Memory.wfFrom, Bool.and_eq_true, decide_eq_true_eq] at hm
    by_cases h : i = k
    · simp only [h, bne_self_eq_false, Bool.false_eq_true, not_false_eq_true, List.filter_cons_of_neg]
      exact Memory.wfFrom_mono (by omega) (ih hm.2)
    · rw [List.filter_cons_of_pos (by simpa using h)]
      simp only [Memory.wfFrom, Bool.and_eq_true, decide_eq_true_eq]
      exact ⟨hm.1, ih hm.2⟩

/-- A write of one cell keeps the canonical form. -/
theorem Memory.wf_writeByte {m : Memory} (h : m.wf = true) (k : Nat) (b : Byte) :
    (m.writeByte k b).wf = true := by
  unfold Memory.writeByte
  split
  · exact Memory.wfFrom_filter h
  · next hb => exact Memory.wfFrom_insert hb (Nat.zero_le k) h

/-- A write of one Word keeps the canonical form. -/
theorem Memory.wf_writeWord {m : Memory} (h : m.wf = true) (i : Nat) (w : Word) :
    (m.writeWord i w).wf = true :=
  Memory.wf_writeByte (Memory.wf_writeByte h _ _) _ _

theorem Memory.within_insert {n : Nat} {m : Memory} (h : m.within n = true) {k : Nat} (hk : k < 2 * n) (b : Byte) :
    (Memory.insert m k b).within n = true := by
  induction m with
  | nil => simp [Memory.insert, Memory.within, hk]
  | cons c rest ih =>
    obtain ⟨i, v⟩ := c
    simp only [Memory.within, List.all_cons, Bool.and_eq_true, decide_eq_true_eq] at h ih
    simp only [Memory.insert]
    split
    · simp only [Memory.within, List.all_cons, Bool.and_eq_true, decide_eq_true_eq]
      exact ⟨hk, h⟩
    · split
      · simp only [Memory.within, List.all_cons, Bool.and_eq_true, decide_eq_true_eq]
        exact ⟨hk, h.2⟩
      · simp only [Memory.within, List.all_cons, Bool.and_eq_true, decide_eq_true_eq]
        exact ⟨h.1, ih h.2⟩

/-- A write of one of the first `n` Words' cells lists no cell beyond them. -/
theorem Memory.within_writeByte {n : Nat} {m : Memory} (h : m.within n = true) {k : Nat} (hk : k < 2 * n) (b : Byte) :
    (m.writeByte k b).within n = true := by
  unfold Memory.writeByte
  split
  · simp only [Memory.within, List.all_eq_true, decide_eq_true_eq] at h ⊢
    exact fun c hc => h c (List.mem_of_mem_filter hc)
  · exact Memory.within_insert h hk b

/-- A write of one of the first `n` Words lists no cell beyond them. -/
theorem Memory.within_writeWord {n : Nat} {m : Memory} (h : m.within n = true) {i : Nat} (hi : i < n) (w : Word) :
    (m.writeWord i w).within n = true :=
  Memory.within_writeByte (Memory.within_writeByte h (by omega) _) (by omega) _

/-- Placing Words keeps the canonical form. -/
theorem Memory.wf_placeWords (ws : List Word) :
    ∀ {m : Memory} (i : Nat), m.wf = true → (Memory.placeWords m i ws).wf = true := by
  induction ws with
  | nil => intro m i h; exact h
  | cons w ws ih => intro m i h; exact ih (i + 1) (Memory.wf_writeWord h i w)

/-- Placing Words that end within the first `n` lists no cell beyond them. -/
theorem Memory.within_placeWords {n : Nat} (ws : List Word) :
    ∀ {m : Memory} (i : Nat), m.within n = true → i + ws.length ≤ n →
      (Memory.placeWords m i ws).within n = true := by
  induction ws with
  | nil => intro m i h _; exact h
  | cons w ws ih =>
    intro m i h hn
    simp only [List.length_cons] at hn
    exact ih (i + 1) (Memory.within_writeWord h (by omega) w) (by omega)

/-- Below the address its canonical form starts at, a memory lists nothing. -/
theorem Memory.readByte_of_lt {m : Memory} {k : Nat} :
    ∀ {lo : Nat}, Memory.wfFrom lo m = true → k < lo → m.readByte k = Config.unlistedByte := by
  induction m with
  | nil => intro _ _ _; rfl
  | cons c rest ih =>
    intro lo hm hk
    obtain ⟨i, v⟩ := c
    simp only [Memory.wfFrom, Bool.and_eq_true, decide_eq_true_eq] at hm
    rw [Memory.readByte_cons, if_neg (by simp only; omega)]
    exact ih hm.2 (by omega)

theorem Memory.wfFrom_consCell {k : Nat} {b : Byte} {m : Memory} (h : Memory.wfFrom (k + 1) m = true) :
    Memory.wfFrom k (Memory.consCell k b m) = true := by
  unfold Memory.consCell
  split
  · exact Memory.wfFrom_mono (by omega) h
  · next hb => simp [Memory.wfFrom, hb, h]

/-- One cell after listing a new first one. -/
theorem Memory.readByte_consCell {k : Nat} {b : Byte} {m : Memory} (h : Memory.wfFrom (k + 1) m = true) (j : Nat) :
    (Memory.consCell k b m).readByte j = if j = k then b else m.readByte j := by
  unfold Memory.consCell
  split
  · next hb =>
    split
    · next hj => rw [hj, Memory.readByte_of_lt h (Nat.lt_succ_self k), hb]
    · rfl
  · rfl

theorem Memory.within_consCell {n k : Nat} {b : Byte} {m : Memory} (h : m.within n = true) (hk : k < 2 * n) :
    (Memory.consCell k b m).within n = true := by
  unfold Memory.consCell
  split
  · exact h
  · simp only [Memory.within, List.all_cons, Bool.and_eq_true, decide_eq_true_eq]
    exact ⟨hk, h⟩

theorem Memory.wfFrom_fillFrom (w : Word) (n : Nat) :
    ∀ i : Nat, Memory.wfFrom (2 * i) (Memory.fillFrom w i n) = true := by
  induction n with
  | zero => intro _; rfl
  | succ n ih => intro i; exact Memory.wfFrom_consCell (Memory.wfFrom_consCell (ih (i + 1)))

theorem Memory.within_fillFrom {words : Nat} (w : Word) (n : Nat) :
    ∀ i : Nat, i + n ≤ words → (Memory.fillFrom w i n).within words = true := by
  induction n with
  | zero => intro _ _; rfl
  | succ n ih =>
    intro i h
    exact Memory.within_consCell (Memory.within_consCell (ih (i + 1) (by omega)) (by omega)) (by omega)

theorem Memory.readWord_fillFrom (w : Word) (n : Nat) :
    ∀ i j : Nat, i ≤ j → j < i + n → (Memory.fillFrom w i n).readWord j = w := by
  induction n with
  | zero => intro _ _ _ _; omega
  | succ n ih =>
    intro i j hi hj
    have h1 : Memory.wfFrom (2 * i + 1 + 1) (Memory.fillFrom w (i + 1) n) = true := Memory.wfFrom_fillFrom w n (i + 1)
    have h2 : Memory.wfFrom (2 * i + 1)
        (Memory.consCell (2 * i + 1) (hiByte w) (Memory.fillFrom w (i + 1) n)) = true := Memory.wfFrom_consCell h1
    unfold Memory.readWord
    simp only [Memory.fillFrom, Memory.readByte_consCell h1, Memory.readByte_consCell h2]
    by_cases h : j = i
    · subst h
      simp [wordOfBytes_hi_lo]
    · rw [if_neg (by omega), if_neg (by omega), if_neg (by omega), if_neg (by omega)]
      exact ih (i + 1) j (by omega) (by omega)

/-- A filled memory is in canonical form. -/
theorem Memory.wf_filled (words : Nat) (w : Word) : (Memory.filled words w).wf = true := by
  unfold Memory.filled
  split
  · rfl
  · exact Memory.wfFrom_fillFrom w words 0

/-- A filled memory lists no cell beyond its Words. -/
theorem Memory.within_filled (words : Nat) (w : Word) : (Memory.filled words w).within words = true := by
  unfold Memory.filled
  split
  · rfl
  · exact Memory.within_fillFrom w words 0 (by omega)

/-- Every Word of a filled memory is the one it was filled with. -/
theorem Memory.readWord_filled {words i : Nat} (w : Word) (h : i < words) :
    (Memory.filled words w).readWord i = w := by
  unfold Memory.filled
  split
  · next hw => exact hw
  · exact Memory.readWord_fillFrom w words 0 i (by omega) (by omega)

/-- One Word after placing: the placed Word where one was placed, the old one everywhere else. -/
theorem Memory.readWord_placeWords (ws : List Word) : ∀ (m : Memory) (i j : Nat),
    (Memory.placeWords m i ws).readWord j =
      if i ≤ j ∧ j < i + ws.length then ws.getD (j - i) 0 else m.readWord j := by
  induction ws with
  | nil =>
    intro m i j
    rw [if_neg (by simp only [List.length_nil]; omega)]
    rfl
  | cons w ws ih =>
    intro m i j
    rw [Memory.placeWords, ih]
    simp only [List.length_cons]
    by_cases h : j = i
    · subst h
      rw [if_neg (by omega), if_pos (by omega)]
      simp
    · rw [Memory.readWord_writeWord_other _ _ _ _ h]
      by_cases h2 : i + 1 ≤ j ∧ j < i + 1 + ws.length
      · rw [if_pos h2, if_pos (by omega), show j - i = (j - (i + 1)) + 1 by omega]
        simp
      · rw [if_neg h2, if_neg (by omega)]

end Sys2Proof.Machine
end

