-- ==== Sys2Proof/Laws/State.lean ====
section
/-! SUPPORT. What each named update of State does to each field, one lemma a pair, so that no proof unfolds a
record update. -/

namespace Sys2Proof.Machine

variable (s : State)

@[simp] theorem State.setA_a (v : Word) : (s.setA v).a = v := rfl
@[simp] theorem State.setA_d (v : Word) : (s.setA v).d = s.d := rfl
@[simp] theorem State.setA_pc (v : Word) : (s.setA v).pc = s.pc := rfl
@[simp] theorem State.setA_rom (v : Word) : (s.setA v).rom = s.rom := rfl
@[simp] theorem State.setA_ram (v : Word) : (s.setA v).ram = s.ram := rfl
@[simp] theorem State.setA_fb (v : Word) : (s.setA v).fb = s.fb := rfl
@[simp] theorem State.setA_kbd (v : Word) : (s.setA v).kbd = s.kbd := rfl
@[simp] theorem State.setA_kbdReads (v : Word) : (s.setA v).kbdReads = s.kbdReads := rfl

@[simp] theorem State.setD_a (v : Word) : (s.setD v).a = s.a := rfl
@[simp] theorem State.setD_d (v : Word) : (s.setD v).d = v := rfl
@[simp] theorem State.setD_pc (v : Word) : (s.setD v).pc = s.pc := rfl
@[simp] theorem State.setD_rom (v : Word) : (s.setD v).rom = s.rom := rfl
@[simp] theorem State.setD_ram (v : Word) : (s.setD v).ram = s.ram := rfl
@[simp] theorem State.setD_fb (v : Word) : (s.setD v).fb = s.fb := rfl
@[simp] theorem State.setD_kbd (v : Word) : (s.setD v).kbd = s.kbd := rfl
@[simp] theorem State.setD_kbdReads (v : Word) : (s.setD v).kbdReads = s.kbdReads := rfl

@[simp] theorem State.setPc_a (v : Word) : (s.setPc v).a = s.a := rfl
@[simp] theorem State.setPc_d (v : Word) : (s.setPc v).d = s.d := rfl
@[simp] theorem State.setPc_pc (v : Word) : (s.setPc v).pc = v := rfl
@[simp] theorem State.setPc_rom (v : Word) : (s.setPc v).rom = s.rom := rfl
@[simp] theorem State.setPc_ram (v : Word) : (s.setPc v).ram = s.ram := rfl
@[simp] theorem State.setPc_fb (v : Word) : (s.setPc v).fb = s.fb := rfl
@[simp] theorem State.setPc_kbd (v : Word) : (s.setPc v).kbd = s.kbd := rfl
@[simp] theorem State.setPc_kbdReads (v : Word) : (s.setPc v).kbdReads = s.kbdReads := rfl

@[simp] theorem State.setRom_a (m : Memory) : (s.setRom m).a = s.a := rfl
@[simp] theorem State.setRom_d (m : Memory) : (s.setRom m).d = s.d := rfl
@[simp] theorem State.setRom_pc (m : Memory) : (s.setRom m).pc = s.pc := rfl
@[simp] theorem State.setRom_rom (m : Memory) : (s.setRom m).rom = m := rfl
@[simp] theorem State.setRom_ram (m : Memory) : (s.setRom m).ram = s.ram := rfl
@[simp] theorem State.setRom_fb (m : Memory) : (s.setRom m).fb = s.fb := rfl
@[simp] theorem State.setRom_kbd (m : Memory) : (s.setRom m).kbd = s.kbd := rfl
@[simp] theorem State.setRom_kbdReads (m : Memory) : (s.setRom m).kbdReads = s.kbdReads := rfl

@[simp] theorem State.setRam_a (m : Memory) : (s.setRam m).a = s.a := rfl
@[simp] theorem State.setRam_d (m : Memory) : (s.setRam m).d = s.d := rfl
@[simp] theorem State.setRam_pc (m : Memory) : (s.setRam m).pc = s.pc := rfl
@[simp] theorem State.setRam_rom (m : Memory) : (s.setRam m).rom = s.rom := rfl
@[simp] theorem State.setRam_ram (m : Memory) : (s.setRam m).ram = m := rfl
@[simp] theorem State.setRam_fb (m : Memory) : (s.setRam m).fb = s.fb := rfl
@[simp] theorem State.setRam_kbd (m : Memory) : (s.setRam m).kbd = s.kbd := rfl
@[simp] theorem State.setRam_kbdReads (m : Memory) : (s.setRam m).kbdReads = s.kbdReads := rfl

@[simp] theorem State.setFb_a (m : Memory) : (s.setFb m).a = s.a := rfl
@[simp] theorem State.setFb_d (m : Memory) : (s.setFb m).d = s.d := rfl
@[simp] theorem State.setFb_pc (m : Memory) : (s.setFb m).pc = s.pc := rfl
@[simp] theorem State.setFb_rom (m : Memory) : (s.setFb m).rom = s.rom := rfl
@[simp] theorem State.setFb_ram (m : Memory) : (s.setFb m).ram = s.ram := rfl
@[simp] theorem State.setFb_fb (m : Memory) : (s.setFb m).fb = m := rfl
@[simp] theorem State.setFb_kbd (m : Memory) : (s.setFb m).kbd = s.kbd := rfl
@[simp] theorem State.setFb_kbdReads (m : Memory) : (s.setFb m).kbdReads = s.kbdReads := rfl

@[simp] theorem State.nextKbd_a : s.nextKbd.a = s.a := rfl
@[simp] theorem State.nextKbd_d : s.nextKbd.d = s.d := rfl
@[simp] theorem State.nextKbd_pc : s.nextKbd.pc = s.pc := rfl
@[simp] theorem State.nextKbd_rom : s.nextKbd.rom = s.rom := rfl
@[simp] theorem State.nextKbd_ram : s.nextKbd.ram = s.ram := rfl
@[simp] theorem State.nextKbd_fb : s.nextKbd.fb = s.fb := rfl
@[simp] theorem State.nextKbd_kbd : s.nextKbd.kbd = s.kbd.tail := rfl
@[simp] theorem State.nextKbd_kbdReads : s.nextKbd.kbdReads = s.kbdReads + 1 := rfl

end Sys2Proof.Machine
end

