-- ==== Sys2Proof/Laws/Ops.lean ====
section
/-! SUPPORT. One lemma for each shared operation that says everything it can do: the increment, the fetch, the
dispatcher's read and write, operand resolution, write-back, the jump condition, and the five phases together. -/

namespace Sys2Proof.Machine

/-- Everything a load does: the store holds the program's Words from address 0 on and ROM_FILL after them, in
canonical form, and nothing else changes. -/
theorem loadProgram_cases {romFill : Word} {ws : List Word} {s t : State} (h : s.loadProgram romFill ws = some t) :
    ws.length ≤ 32768 ∧ t = s.setRom t.rom ∧ t.rom.wf = true ∧ t.rom.within 32768 = true ∧
      ∀ n, n < 32768 → t.rom.readWord n = ws.getD n romFill := by
  unfold State.loadProgram at h
  split at h
  · next hl =>
    cases h
    simp only [Config.istoreWords] at hl
    refine ⟨hl, rfl, Memory.wf_placeWords ws 0 (Memory.wf_filled _ _),
      Memory.within_placeWords ws 0 (Memory.within_filled _ _) (by omega), fun n hn => ?_⟩
    rw [State.setRom_rom, Memory.readWord_placeWords]
    by_cases hw : n < ws.length
    · rw [if_pos (by omega)]
      simp [List.getD, hw]
    · rw [if_neg (by omega), Memory.readWord_filled romFill hn]
      simp [List.getD, hw]
  · cases h

theorem pcPlusOne_eq (pc : Word) : pcPlusOne pc = pc + 1 := by
  simp [pcPlusOne, wrap16, uval, BitVec.ofInt_add]

theorem romWord_of_le {s : State} {addr : Word} (h : uval addr ≤ 0x7FFF) :
    romWord s addr = some (s.rom.readWord (uval addr)) := if_pos h

theorem romWord_of_gt {s : State} {addr : Word} (h : 0x7FFF < uval addr) : romWord s addr = none :=
  if_neg (Nat.not_le.mpr h)

theorem ifetch_of_le {s : State} {addr : Word} (h : uval addr ≤ 0x7FFF) :
    ifetch addr s = .ok (s.rom.readWord (uval addr)) := by
  rw [ifetch, romWord_of_le h]

theorem ifetch_of_gt {s : State} {addr : Word} (h : 0x7FFF < uval addr) :
    ifetch addr s = .error (.badAddress .fetch addr none) := by
  rw [ifetch, romWord_of_gt h]

/-- The keyboard draw happens exactly at 0x6000. -/
theorem memRead_of_le {s : State} {addr : Word} (h : uval addr ≤ 0x6000) :
    memRead addr s = .ok (dataWord s addr, if uval addr = 0x6000 then s.nextKbd else s) := by
  unfold memRead dataWord
  simp only [Config.kbdAddr, Config.fbBase, Config.fbLast, Config.ramLast]
  by_cases hk : uval addr = 0x6000
  · simp only [if_pos hk]
  · by_cases hf : 0x4000 ≤ uval addr
    · simp only [if_neg hk, if_pos hf, if_pos (And.intro hf (show uval addr ≤ 0x5FFF by omega))]
    · simp only [if_neg hk, if_neg hf, if_neg (fun c : _ ∧ _ => hf c.1),
        if_pos (show uval addr ≤ 0x3FFF by omega)]

theorem memRead_of_gt {s : State} {addr : Word} (h : 0x6000 < uval addr) :
    memRead addr s = .error (.badAddress .dataRead addr (instrWord s)) := by
  unfold memRead
  rw [if_neg (by simp only [Config.kbdAddr]; omega),
    if_neg (by simp only [Config.fbBase, Config.fbLast]; omega), if_neg (by simp only [Config.ramLast]; omega)]

theorem memWrite_ram {s : State} {addr v : Word} (h : uval addr ≤ 0x3FFF) :
    memWrite addr v s = .ok (s.setRam (s.ram.writeWord (uval addr) v)) := if_pos h

theorem memWrite_fb {s : State} {addr v : Word} (h1 : 0x4000 ≤ uval addr) (h2 : uval addr ≤ 0x5FFF) :
    memWrite addr v s = .ok (s.setFb (s.fb.writeWord (uval addr - 0x4000) v)) := by
  unfold memWrite
  rw [if_neg (by simp only [Config.ramLast]; omega), if_pos ⟨h1, h2⟩]

theorem memWrite_of_gt {s : State} {addr v : Word} (h : 0x5FFF < uval addr) :
    memWrite addr v s = .error (.badAddress .dataWrite addr (instrWord s)) := by
  unfold memWrite
  rw [if_neg (by simp only [Config.ramLast]; omega),
    if_neg (by simp only [Config.fbBase, Config.fbLast]; omega)]

/-- The state after operand resolution: the keyboard draw, if one is made. -/
theorem resolveX_of_readable {x : XSource} {s : State} (h : Readable x s) :
    resolveX x s = .ok (operandX x s, if DrawsKbd x s then s.nextKbd else s) := by
  cases x with
  | regA => simp [resolveX, operandX, DrawsKbd]
  | memM =>
    rw [resolveX, memRead_of_le (h rfl)]
    simp [operandX, DrawsKbd]

theorem resolveX_of_not_readable {x : XSource} {s : State} (h : ¬ Readable x s) :
    resolveX x s = .error (.badAddress .dataRead s.a (instrWord s)) := by
  cases x with
  | regA => exact absurd (fun c => by cases c) h
  | memM => exact memRead_of_gt (Nat.not_le.mp fun c => h fun _ => c)

/-- The jump condition by bits is the jump table by rows. -/
theorem jumpCond_eq_jumpTaken (jump : Jump) (r : Word) : jumpCond jump r = jumpTaken jump r := by
  have hz : (r = 0x0000) ↔ sval r = 0 := by
    constructor
    · rintro rfl; rfl
    · intro h; exact BitVec.eq_of_toInt_eq (by simpa using h)
  have hor : sval r < 0 ∨ sval r = 0 ∨ 0 < sval r := by omega
  cases jump <;> simp only [jumpCond, jumpTaken, codeJump, hz, ne_eq] <;>
    rcases hor with h | h | h <;> simp (disch := omega) [h, Int.not_lt.mpr, Int.le_of_lt] <;> omega

theorem writeRegs_fields (dest : Dest) (r : Word) (s : State) :
    (writeRegs dest r s).a = (if dest.a then r else s.a) ∧ (writeRegs dest r s).d = (if dest.d then r else s.d) ∧
      (writeRegs dest r s).pc = s.pc ∧ (writeRegs dest r s).rom = s.rom ∧ (writeRegs dest r s).ram = s.ram ∧
      (writeRegs dest r s).fb = s.fb ∧ (writeRegs dest r s).kbd = s.kbd ∧
      (writeRegs dest r s).kbdReads = s.kbdReads := by
  obtain ⟨da, dd, dm⟩ := dest
  cases da <;> cases dd <;> simp [writeRegs]

/-- The memory phase of write-back on a writable address. -/
theorem writeM_of_writable {dest : Dest} {r : Word} {s : State} (h : Writable dest s) :
    ∃ t, writeM dest r s = .ok t ∧ t.a = s.a ∧ t.d = s.d ∧ t.pc = s.pc ∧ t.rom = s.rom ∧
      t.kbd = s.kbd ∧ t.kbdReads = s.kbdReads ∧
      t.ram = (if dest.m = true ∧ uval s.a ≤ 0x3FFF then s.ram.writeWord (uval s.a) r else s.ram) ∧
      t.fb = (if dest.m = true ∧ 0x4000 ≤ uval s.a then s.fb.writeWord (uval s.a - 0x4000) r else s.fb) := by
  unfold writeM
  by_cases hm : dest.m = true
  · by_cases hr : uval s.a ≤ 0x3FFF
    · refine ⟨_, by rw [if_pos hm, memWrite_ram hr], ?_⟩
      simp [hm, hr, show ¬ 0x4000 ≤ uval s.a by omega]
    · refine ⟨_, by rw [if_pos hm, memWrite_fb (by omega) (h hm)], ?_⟩
      simp [hm, hr, show 0x4000 ≤ uval s.a by omega]
  · exact ⟨s, by rw [if_neg hm], by simp [hm]⟩

theorem writeM_of_not_writable {dest : Dest} {r : Word} {s : State} (h : ¬ Writable dest s) :
    writeM dest r s = .error (.badAddress .dataWrite s.a (instrWord s)) := by
  have hm : dest.m = true := by
    by_contra c
    exact h fun c' => absurd c' c
  have ha : 0x5FFF < uval s.a := Nat.not_le.mp fun c => h fun _ => c
  rw [writeM, if_pos hm, memWrite_of_gt ha]

/-- What follows a successful draw or none: the registers, the memories and the fetched Word are as before. -/
theorem afterDraw (p : Prop) [Decidable p] (s : State) :
    (if p then s.nextKbd else s).a = s.a ∧ (if p then s.nextKbd else s).d = s.d ∧
      (if p then s.nextKbd else s).pc = s.pc ∧ (if p then s.nextKbd else s).rom = s.rom ∧
      (if p then s.nextKbd else s).ram = s.ram ∧ (if p then s.nextKbd else s).fb = s.fb ∧
      (if p then s.nextKbd else s).kbd = (if p then s.kbd.tail else s.kbd) ∧
      (if p then s.nextKbd else s).kbdReads = (if p then s.kbdReads + 1 else s.kbdReads) := by
  split <;> simp

theorem compute_readFault {op : Word → Word → Word → Word} {x : XSource} {dest : Dest} {jump : Jump} {s : State}
    (h : ¬ Readable x s) : compute op x dest jump s = .fault (.badAddress .dataRead s.a (instrWord s)) := by
  rw [compute, resolveX_of_not_readable h]
  rfl

theorem compute_writeFault {op : Word → Word → Word → Word} {x : XSource} {dest : Dest} {jump : Jump} {s : State}
    (hr : Readable x s) (hw : ¬ Writable dest s) :
    compute op x dest jump s = .fault (.badAddress .dataWrite s.a (instrWord s)) := by
  obtain ⟨ha, -, hpc, hrom, -⟩ := afterDraw (DrawsKbd x s) s
  rw [compute, resolveX_of_readable hr]
  simp only [writeBack]
  rw [writeM_of_not_writable (by simpa only [Writable, ha] using hw)]
  simp only [raise, ha, instrWord, romWord, hpc, hrom]

/-- The memories a compute instruction leaves: one Word written in one of them, or none. -/
theorem compute_next {op : Word → Word → Word → Word} {x : XSource} {dest : Dest} {jump : Jump} {s : State}
    (hr : Readable x s) (hw : Writable dest s) :
    ∃ t, compute op x dest jump s = .next t ∧
      ComputeEffect s t x dest jump (op s.d s.a (operandX x s)) ∧
      t.ram = (if dest.m = true ∧ uval s.a ≤ 0x3FFF
        then s.ram.writeWord (uval s.a) (op s.d s.a (operandX x s)) else s.ram) ∧
      t.fb = (if dest.m = true ∧ 0x4000 ≤ uval s.a
        then s.fb.writeWord (uval s.a - 0x4000) (op s.d s.a (operandX x s)) else s.fb) := by
  obtain ⟨ha, hd, hpc, hrom, hram, hfb, hkbd, hreads⟩ := afterDraw (DrawsKbd x s) s
  generalize hr0 : op s.d s.a (operandX x s) = r
  obtain ⟨u, hu, ua, ud, upc, urom, ukbd, ureads, uram, ufb⟩ :=
    writeM_of_writable (dest := dest) (r := r) (s := if DrawsKbd x s then s.nextKbd else s)
      (by simpa only [Writable, ha] using hw)
  rw [ha, hram] at uram
  rw [ha, hfb] at ufb
  obtain ⟨wa, wd, wpc, wrom, wram, wfb, wkbd, wreads⟩ := writeRegs_fields dest r u
  refine ⟨updatePc jump r (writeRegs dest r u), ?_, ?_, ?_, ?_⟩
  · rw [compute, resolveX_of_readable hr]
    simp only [writeBack, hr0, hu]
  · constructor
    · unfold updatePc; split <;> simp [wa, ua, ha]
    · unfold updatePc; split <;> simp [wd, ud, hd]
    · unfold updatePc
      rw [jumpCond_eq_jumpTaken]
      split <;> simp [wpc, upc, hpc, pcPlusOne_eq]
    · unfold updatePc; split <;> simp [wrom, urom, hrom]
    · intro hm hle
      unfold updatePc; split <;> simp [wram, uram, hm, hle]
    · intro k hk
      have : (updatePc jump r (writeRegs dest r u)).ram = u.ram := by
        unfold updatePc; split <;> simp [wram]
      rw [this, uram]
      split
      · next h => exact Memory.readByte_writeWord_frame _ _ _ _ fun c => hk ⟨h.1, h.2, c⟩
      · rfl
    · intro hm hge
      unfold updatePc; split <;> simp [wfb, ufb, hm, hge]
    · intro k hk
      have : (updatePc jump r (writeRegs dest r u)).fb = u.fb := by
        unfold updatePc; split <;> simp [wfb]
      rw [this, ufb]
      split
      · next h => exact Memory.readByte_writeWord_frame _ _ _ _ fun c => hk ⟨h.1, h.2, c⟩
      · rfl
    · unfold updatePc; split <;> simp [wkbd, ukbd, hkbd]
    · unfold updatePc; split <;> simp [wreads, ureads, hreads]
  · unfold updatePc; split <;> simp [wram, uram]
  · unfold updatePc; split <;> simp [wfb, ufb]

end Sys2Proof.Machine
end

