-- ==== Sys2Proof/Laws/PerInstr.lean ====
section
/-! SUPPORT. Statements about every instruction as syntax, one lemma per constructor. Family TableRow: the encoder's
Word is a Word of the instruction's own row of the opcode map (`30_encoding.md` R56). -/

namespace Sys2Proof.Laws.TableRow

/-- "a Word `w` is the instruction iff `(w & mask) == match`" (R56), of the encoder's Word. -/
def Statement (i : Instr) : Prop := WellFormed i = true → encode i &&& (opcodeRow i).2 = (opcodeRow i).1

/-- What the mask leaves of a compute Word: bit 15 and `comp`. -/
theorem encodeCompute_masked (comp : BitVec 6) (x : XSource) (dest : Dest) (jump : Jump) :
    encodeCompute comp x dest jump &&& 0x8FC0 = 1#1 ++ 0#3 ++ comp ++ 0#6 := by
  obtain ⟨a, d, m⟩ := dest
  have h : ∀ c : BitVec 6, ∀ y : BitVec 1, ∀ z j : BitVec 3,
      (0b111#3 ++ y ++ c ++ z ++ j : Word) &&& 0x8FC0 = 1#1 ++ 0#3 ++ c ++ 0#6 := by
    intro c y z j
    apply BitVec.eq_of_getLsbD_eq
    intro i hi
    simp only [BitVec.getLsbD_and, BitVec.getLsbD_append]
    interval_cases i <;> simp
  exact h _ _ _ _

theorem aLoad (imm15 : Nat) : Statement (.aLoad imm15) := by
  intro _
  apply BitVec.eq_of_getLsbD_eq
  intro i hi
  simp only [encode, opcodeRow, BitVec.getLsbD_and, BitVec.getLsbD_append]
  interval_cases i <;> simp

theorem cZero (x : XSource) (dest : Dest) (jump : Jump) : Statement (.cZero x dest jump) :=
  fun _ => encodeCompute_masked _ x dest jump

theorem cOne (x : XSource) (dest : Dest) (jump : Jump) : Statement (.cOne x dest jump) :=
  fun _ => encodeCompute_masked _ x dest jump

theorem cNeg1 (x : XSource) (dest : Dest) (jump : Jump) : Statement (.cNeg1 x dest jump) :=
  fun _ => encodeCompute_masked _ x dest jump

theorem cD (x : XSource) (dest : Dest) (jump : Jump) : Statement (.cD x dest jump) :=
  fun _ => encodeCompute_masked _ x dest jump

theorem cX (x : XSource) (dest : Dest) (jump : Jump) : Statement (.cX x dest jump) :=
  fun _ => encodeCompute_masked _ x dest jump

theorem cNotD (x : XSource) (dest : Dest) (jump : Jump) : Statement (.cNotD x dest jump) :=
  fun _ => encodeCompute_masked _ x dest jump

theorem cNotX (x : XSource) (dest : Dest) (jump : Jump) : Statement (.cNotX x dest jump) :=
  fun _ => encodeCompute_masked _ x dest jump

theorem cNegD (x : XSource) (dest : Dest) (jump : Jump) : Statement (.cNegD x dest jump) :=
  fun _ => encodeCompute_masked _ x dest jump

theorem cNegA (x : XSource) (dest : Dest) (jump : Jump) : Statement (.cNegA x dest jump) :=
  fun _ => encodeCompute_masked _ x dest jump

theorem cIncD (x : XSource) (dest : Dest) (jump : Jump) : Statement (.cIncD x dest jump) :=
  fun _ => encodeCompute_masked _ x dest jump

theorem cIncX (x : XSource) (dest : Dest) (jump : Jump) : Statement (.cIncX x dest jump) :=
  fun _ => encodeCompute_masked _ x dest jump

theorem cDecD (x : XSource) (dest : Dest) (jump : Jump) : Statement (.cDecD x dest jump) :=
  fun _ => encodeCompute_masked _ x dest jump

theorem cDecX (x : XSource) (dest : Dest) (jump : Jump) : Statement (.cDecX x dest jump) :=
  fun _ => encodeCompute_masked _ x dest jump

theorem cAdd (x : XSource) (dest : Dest) (jump : Jump) : Statement (.cAdd x dest jump) :=
  fun _ => encodeCompute_masked _ x dest jump

theorem cSubDX (x : XSource) (dest : Dest) (jump : Jump) : Statement (.cSubDX x dest jump) :=
  fun _ => encodeCompute_masked _ x dest jump

theorem cSubXD (x : XSource) (dest : Dest) (jump : Jump) : Statement (.cSubXD x dest jump) :=
  fun _ => encodeCompute_masked _ x dest jump

theorem cAnd (x : XSource) (dest : Dest) (jump : Jump) : Statement (.cAnd x dest jump) :=
  fun _ => encodeCompute_masked _ x dest jump

theorem cOr (x : XSource) (dest : Dest) (jump : Jump) : Statement (.cOr x dest jump) :=
  fun _ => encodeCompute_masked _ x dest jump

end Sys2Proof.Laws.TableRow
end

