-- ==== Sys2Proof/Laws/Step.lean ====
section
/-! SUPPORT. What exec and step can do, said once: A.LOAD's next state, every compute instruction as the shared
five phases, and the inversion of a completed step. -/

namespace Sys2Proof.Machine

theorem exec_aLoad (imm15 : Nat) (s : State) :
    exec (.aLoad imm15) s = .next ((s.setA (BitVec.ofNat 16 imm15)).setPc (s.pc + 1)) := by
  simp only [exec, execALoad, pcPlusOne_eq, wrap16, BitVec.ofInt_natCast]

/-- Every compute instruction is the five phases around an operation that gives the table's result. -/
theorem exec_compute {i : Instr} {x : XSource} {dest : Dest} {jump : Jump}
    (h : computeFields i = some (x, dest, jump)) :
    ∃ op, (∀ d a v, op d a v = resultOf i d a v) ∧ ∀ s, exec i s = compute op x dest jump s := by
  cases i with
  | aLoad imm15 => cases h
  | cZero x' d' j' => cases h; exact ⟨aluZero, aluZero_eq, fun _ => rfl⟩
  | cOne x' d' j' => cases h; exact ⟨aluOne, aluOne_eq, fun _ => rfl⟩
  | cNeg1 x' d' j' => cases h; exact ⟨aluNeg1, aluNeg1_eq, fun _ => rfl⟩
  | cD x' d' j' => cases h; exact ⟨aluD, fun _ _ _ => rfl, fun _ => rfl⟩
  | cX x' d' j' => cases h; exact ⟨aluX, fun _ _ _ => rfl, fun _ => rfl⟩
  | cNotD x' d' j' => cases h; exact ⟨aluNotD, fun _ _ _ => rfl, fun _ => rfl⟩
  | cNotX x' d' j' => cases h; exact ⟨aluNotX, fun _ _ _ => rfl, fun _ => rfl⟩
  | cNegD x' d' j' => cases h; exact ⟨aluNegD, aluNegD_eq, fun _ => rfl⟩
  | cNegA x' d' j' => cases h; exact ⟨aluNegA, aluNegA_eq, fun _ => rfl⟩
  | cIncD x' d' j' => cases h; exact ⟨aluIncD, aluIncD_eq, fun _ => rfl⟩
  | cIncX x' d' j' => cases h; exact ⟨aluIncX, aluIncX_eq, fun _ => rfl⟩
  | cDecD x' d' j' => cases h; exact ⟨aluDecD, aluDecD_eq, fun _ => rfl⟩
  | cDecX x' d' j' => cases h; exact ⟨aluDecX, aluDecX_eq, fun _ => rfl⟩
  | cAdd x' d' j' => cases h; exact ⟨aluAdd, aluAdd_eq, fun _ => rfl⟩
  | cSubDX x' d' j' => cases h; exact ⟨aluSubDX, aluSubDX_eq, fun _ => rfl⟩
  | cSubXD x' d' j' => cases h; exact ⟨aluSubXD, aluSubXD_eq, fun _ => rfl⟩
  | cAnd x' d' j' => cases h; exact ⟨aluAnd, fun _ _ _ => rfl, fun _ => rfl⟩
  | cOr x' d' j' => cases h; exact ⟨aluOr, fun _ _ _ => rfl, fun _ => rfl⟩

/-- An instruction without compute fields is A.LOAD. -/
theorem eq_aLoad_of_no_fields {i : Instr} (h : computeFields i = none) : ∃ imm15, i = .aLoad imm15 := by
  cases i <;> first | exact ⟨_, rfl⟩ | cases h

/-- The inversion of exec: a completed instruction is A.LOAD, or a compute instruction on operands that exist. -/
theorem exec_next_cases {i : Instr} {s t : State} (h : exec i s = .next t) :
    (∃ imm15, i = .aLoad imm15 ∧ t = (s.setA (BitVec.ofNat 16 imm15)).setPc (s.pc + 1)) ∨
    (∃ x dest jump r, computeFields i = some (x, dest, jump) ∧ Readable x s ∧ Writable dest s ∧
      r = resultOf i s.d s.a (operandX x s) ∧ ComputeEffect s t x dest jump r ∧
      t.ram = (if dest.m = true ∧ uval s.a ≤ 0x3FFF then s.ram.writeWord (uval s.a) r else s.ram) ∧
      t.fb = (if dest.m = true ∧ 0x4000 ≤ uval s.a then s.fb.writeWord (uval s.a - 0x4000) r else s.fb)) := by
  cases hf : computeFields i with
  | none =>
    obtain ⟨imm15, rfl⟩ := eq_aLoad_of_no_fields hf
    rw [exec_aLoad] at h
    cases h
    exact .inl ⟨imm15, rfl, rfl⟩
  | some fields =>
    obtain ⟨x, dest, jump⟩ := fields
    obtain ⟨op, hop, he⟩ := exec_compute hf
    rw [he] at h
    by_cases hr : Readable x s
    · by_cases hw : Writable dest s
      · obtain ⟨u, hu, heff, hram, hfb⟩ := compute_next (op := op) (jump := jump) hr hw
        rw [hu] at h
        cases h
        rw [hop] at heff hram hfb
        exact .inr ⟨x, dest, jump, _, rfl, hr, hw, rfl, heff, hram, hfb⟩
      · rw [compute_writeFault hr hw] at h; cases h
    · rw [compute_readFault hr] at h; cases h

/-- The inversion of step: a completed step fetched an existing Word, decoded it and ran it. -/
theorem step_next_cases {s t : State} (h : step s = .next t) :
    uval s.pc ≤ 0x7FFF ∧ ∃ i, decode (s.rom.readWord (uval s.pc)) = .ok i ∧ exec i s = .next t := by
  by_cases hpc : uval s.pc ≤ 0x7FFF
  · refine ⟨hpc, ?_⟩
    simp only [step, fetchDecode, ifetch_of_le hpc] at h
    cases hd : decode (s.rom.readWord (uval s.pc)) with
    | ok i => rw [hd] at h; exact ⟨i, rfl, h⟩
    | error e => obtain ⟨w⟩ := e; rw [hd] at h; cases h
  · simp only [step, fetchDecode, ifetch_of_gt (Nat.not_le.mp hpc)] at h
    cases h

end Sys2Proof.Machine
end

