-- ==== Sys2Proof/Tests/Slice0.lean ====
section
/-! SUPPORT. The model's own tests. Expected values come from the spec: the encodings of `30_encoding.md` R51, R52, R56
written out bit by bit, the worked examples of the rules, and the vectors of `95_test_vectors.md`. The last part gives a
witness for the hypotheses of every statement that has some, at boundary values. -/

namespace Sys2Proof.Tests

open Sys2Proof.Machine Sys2Proof.Claims

/-- The Word `w` at PC = 0x0010, A and D as given, RAM empty. -/
def at10 (w a d : Word) : State :=
  { State.reset with a := a, d := d, pc := 0x0010, rom := Memory.writeWord [] 0x10 w }

/-- The same with one RAM Word at `i`. -/
def at10ram (w a d : Word) (i : Nat) (v : Word) : State :=
  (at10 w a d).setRam (Memory.writeWord [] i v)

/-- A = 0x6000, with one keyboard Word presented. -/
def atKbd (v : Word) : State := { at10 0 0x6000 0 with kbd := [v] }

/-- The step completes and its next state passes the check. -/
def completes (s : State) (check : State → Bool) : Bool :=
  match step s with
  | .next t => check t
  | .fault _ => false
  | .refused _ => false

/-- The step faults with exactly this record. -/
def faults (s : State) (f : Fault) : Bool :=
  match step s with
  | .next _ => false
  | .fault g => g == f
  | .refused _ => false

/-- The instruction completes and its next state passes the check. -/
def execCompletes (i : Instr) (s : State) (check : State → Bool) : Bool :=
  match exec i s with
  | .next t => check t
  | .fault _ => false
  | .refused _ => false

/-- The decoder reads this instruction. -/
def decodesTo (w : Word) (i : Instr) : Bool :=
  match decode w with
  | .ok j => j == i
  | .error _ => false

/-- The decoder rejects the Word, by name and with the Word. -/
def rejects (w : Word) : Bool :=
  match decode w with
  | .ok _ => false
  | .error e => e == .badInstruction w

/-! ### WellFormed: the one check, and an ill-formed term it refuses -/

theorem test_wellFormed_imm_last : WellFormed (.aLoad 32767) = true := by decide

theorem test_wellFormed_imm_too_large : WellFormed (.aLoad 32768) = false := by decide

/-! ### Every constructor's Word, bit by bit from R51, R52, R56 -/

theorem test_decode_aLoad : decodesTo 0b0110000000000000#16 (.aLoad 24576) = true := by decide

theorem test_decode_cZero : decodesTo 0b1110101010000111#16 (.cZero .regA ⟨false, false, false⟩ .jmp) = true := by decide

theorem test_decode_cOne : decodesTo 0b1110111111111111#16 (.cOne .regA ⟨true, true, true⟩ .jmp) = true := by decide

theorem test_decode_cNeg1 : decodesTo 0b1110111010001000#16 (.cNeg1 .regA ⟨false, false, true⟩ .noj) = true := by decide

theorem test_decode_cD : decodesTo 0b1110001100000001#16 (.cD .regA ⟨false, false, false⟩ .jgt) = true := by decide

theorem test_decode_cX : decodesTo 0b1111110000010000#16 (.cX .memM ⟨false, true, false⟩ .noj) = true := by decide

theorem test_decode_cNotD : decodesTo 0b1110001101010010#16 (.cNotD .regA ⟨false, true, false⟩ .jeq) = true := by decide

theorem test_decode_cNotX : decodesTo 0b1111110001010000#16 (.cNotX .memM ⟨false, true, false⟩ .noj) = true := by decide

theorem test_decode_cNegD : decodesTo 0b1110001111100011#16 (.cNegD .regA ⟨true, false, false⟩ .jge) = true := by decide

theorem test_decode_cNegA : decodesTo 0b1111110011010000#16 (.cNegA .memM ⟨false, true, false⟩ .noj) = true := by decide

theorem test_decode_cIncD : decodesTo 0b1110011111010100#16 (.cIncD .regA ⟨false, true, false⟩ .jlt) = true := by decide

theorem test_decode_cIncX : decodesTo 0b1111110111001000#16 (.cIncX .memM ⟨false, false, true⟩ .noj) = true := by decide

theorem test_decode_cDecD : decodesTo 0b1110001110010001#16 (.cDecD .regA ⟨false, true, false⟩ .jgt) = true := by decide

theorem test_decode_cDecX : decodesTo 0b1111110010101000#16 (.cDecX .memM ⟨true, false, true⟩ .noj) = true := by decide

theorem test_decode_cAdd : decodesTo 0b1000000010010101#16 (.cAdd .regA ⟨false, true, false⟩ .jne) = true := by decide

theorem test_decode_cSubDX : decodesTo 0b1011010011010110#16 (.cSubDX .memM ⟨false, true, false⟩ .jle) = true := by decide

theorem test_decode_cSubXD : decodesTo 0b1100000111010000#16 (.cSubXD .regA ⟨false, true, false⟩ .noj) = true := by decide

theorem test_decode_cAnd : decodesTo 0b1000000000000000#16 (.cAnd .regA ⟨false, false, false⟩ .noj) = true := by decide

theorem test_decode_cOr : decodesTo 0b1111010101001000#16 (.cOr .memM ⟨false, false, true⟩ .noj) = true := by decide

/-! ### Words that decode to nothing (R59; `95_test_vectors.md` 2.3, 2.6) -/

theorem test_reject_illegal_comp : (rejects 0xE050 && rejects 0xF048 && rejects 0xEAC0 && rejects 0xEF80 &&
    rejects 0xE0C0 && rejects 0x8050) = true := by decide

theorem test_all_comp_values : (List.range 64).all (fun n =>
    rejects (0x8000 ||| (BitVec.ofNat 16 n <<< 6)) == illegalComps.contains (BitVec.ofNat 6 n)) = true := by decide

/-! ### One step of every instruction (`95_test_vectors.md` 2.1, 2.2, 2.4, and the worked examples of R73 to R119) -/

theorem test_step_aLoad : completes { at10 0 0x0003 0x0004 with pc := 0x7FFF, rom := Memory.writeWord [] 0x7FFF 0x1234 }
    (fun t => t.a == 0x1234 && t.d == 0x0004 && t.pc == 0x8000) = true := by decide

theorem test_step_cZero : completes (at10 0xEA90 0x0005 0x0007) (fun t => t.d == 0x0000 && t.a == 0x0005 && t.pc == 0x0011) = true := by decide

theorem test_step_cOne : completes (at10 0xEFE0 0x0005 0x0007) (fun t => t.a == 0x0001 && t.d == 0x0007 && t.pc == 0x0011) = true := by decide

theorem test_step_cNeg1 : completes (at10 0xEE88 0x5FFF 0x0005) (fun t => t.fb.readWord 0x1FFF == 0xFFFF && t.ram == [] && t.pc == 0x0011) = true := by decide

theorem test_step_cD : completes (at10 0xE308 0x0010 0x1234) (fun t => t.ram.readWord 0x10 == 0x1234 && t.a == 0x0010 && t.pc == 0x0011) = true := by decide

theorem test_step_cX : completes (at10ram 0xFC27 0x0064 0x0005 0x64 0x0200) (fun t => t.a == 0x0200 && t.d == 0x0005 && t.pc == 0x0200) = true := by decide

theorem test_step_cNotD : completes (at10 0xE350 0x0005 0x8000) (fun t => t.d == 0x7FFF) = true := by decide

theorem test_step_cNotX : completes (at10ram 0xFC50 0x0003 0x0000 3 0x5555) (fun t => t.d == 0xAAAA) = true := by decide

theorem test_step_cNegD : completes (at10 0xE3D0 0x0000 0x8000) (fun t => t.d == 0x8000) = true := by decide

theorem test_step_cNegA : completes (at10ram 0xFCD0 0x0005 0x0000 5 0x0064) (fun t => t.d == 0xFFFB && t.ram.readWord 5 == 0x0064) = true := by decide

theorem test_step_cIncD : completes (at10 0xE7D4 0x0020 0x7FFF) (fun t => t.d == 0x8000 && t.pc == 0x0020) = true := by decide

theorem test_step_cIncX : completes (at10ram 0xFDC8 0x0010 0x0000 0x10 0xFFFF) (fun t => t.ram == [] && t.pc == 0x0011) = true := by decide

theorem test_step_cDecD : completes (at10 0xE390 0x0000 0x8000) (fun t => t.d == 0x7FFF) = true := by decide

theorem test_step_cDecX : completes (at10ram 0xFCA8 0x0000 0x0005 0 0x0105)
    (fun t => t.a == 0x0104 && t.ram.readWord 0 == 0x0104 && t.ram.readWord 0x104 == 0 && t.pc == 0x0011) = true := by decide

theorem test_step_cAdd : completes (at10 0xE092 0x8000 0x8000) (fun t => t.d == 0x0000 && t.a == 0x8000 && t.pc == 0x8000) = true := by decide

theorem test_step_cSubDX : completes (at10 0xE4D0 0x0001 0x8000) (fun t => t.d == 0x7FFF) = true := by decide

theorem test_step_cSubXD : completes (at10ram 0xF1D0 0x0007 0x0001 7 0x8000) (fun t => t.d == 0x7FFF) = true := by decide

theorem test_step_cAnd : completes (at10 0xE010 0x0FF0 0xF0F0) (fun t => t.d == 0x00F0) = true := by decide

theorem test_step_cOr : completes { at10 0xF548 0x4000 0x00FF with fb := Memory.writeWord [] 0 0xFF00 }
    (fun t => t.fb.readWord 0 == 0xFFFF && t.pc == 0x0011) = true := by decide

/-! ### The dispatcher, the keyboard and the faults (`95_test_vectors.md` 2.3 to 2.6) -/

theorem test_keyboard_read : completes { at10 0xF091 0x6000 0x0001 with kbd := [0x8000, 0x0041] }
    (fun t => t.d == 0x8001 && t.pc == 0x0011 && t.kbd == [0x0041]) = true := by decide

theorem test_keyboard_write : faults (at10 0xFC08 0x6000 0x1111) (.badAddress .dataWrite 0x6000 (some 0xFC08)) = true := by
  decide

theorem test_read_out_of_range : faults (at10 0xFA90 0x7000 0x1111) (.badAddress .dataRead 0x7000 (some 0xFA90)) = true := by
  decide

theorem test_write_out_of_range : faults (at10 0xEFFF 0x7000 0x0003) (.badAddress .dataWrite 0x7000 (some 0xEFFF)) = true := by
  decide

theorem test_bad_instruction_first : faults (at10 0xF048 0x7000 0x0003) (.badInstruction 0xF048) = true := by decide

theorem test_fetch_fault : faults { at10 0 0x0003 0x0004 with pc := 0xFFFF } (.badAddress .fetch 0xFFFF none) = true := by
  decide

theorem test_jump_to_new_a : completes (at10 0xE327 0x0064 0x0005) (fun t => t.a == 0x0005 && t.pc == 0x0005) = true := by
  decide

theorem test_bits_14_13 : (completes (at10 0x8090 0x0003 0x0002) (fun t => t.d == 0x0005) &&
    completes (at10 0xA090 0x0003 0x0002) (fun t => t.d == 0x0005) &&
    completes (at10 0xC090 0x0003 0x0002) (fun t => t.d == 0x0005)) = true := by decide

theorem test_canonical_form : Memory.writeWord (Memory.writeWord [] 7 0x0102) 3 0x0300 = [(7, 3), (14, 2), (15, 1)] ∧
    Memory.writeWord [(7, 3), (14, 2), (15, 1)] 7 0 = [(7, 3)] := by decide

theorem test_memory_wf : Memory.wf [(7, 3), (14, 2)] = true ∧ Memory.wf [(14, 2), (7, 3)] = false ∧
    Memory.wf [(7, 0)] = false := by decide

theorem test_table_word : decodeTableWord 16 0x6000 = some (.aLoad 24576) ∧ decodeTableWord 16 0xE050 = none := by decide

theorem test_withFetchWord : completes (State.reset.withFetchWord 16 0xFDC8) (fun t => t.ram.readWord 0 == 1) = true := by
  decide

/-! ### Host actions (R60, R140, R144) -/

theorem test_reset_event : (({ at10 0 0x1234 0xABCD with pc := 0x0456 } : State).resetEvent.pc = 0 ∧
    ({ at10 0 0x1234 0xABCD with pc := 0x0456 } : State).resetEvent.d = 0xABCD) := by decide

theorem test_parse_line : parseLine "1110101010000111".toList = some 0xEA87 ∧ parseLine "111010101000011".toList = none ∧
    parseLine "11101010100001x1".toList = none := by decide

theorem test_load_text : ((State.reset.loadText 0 ["0000000000000010".toList, "1110110000010000".toList]).map
    (fun t => (t.rom.readWord 0, t.rom.readWord 1, t.rom.readWord 2))) = some (0x0002, 0xEC10, 0) := by decide

/-- ROM_FILL in the cells a shorter program does not reach (D10), on a store of four Words. -/
theorem test_rom_fill : (Memory.placeWords (Memory.filled 4 0xEA00) 0 [0x0002]).readWord 0 = 0x0002 ∧
    (Memory.placeWords (Memory.filled 4 0xEA00) 0 [0x0002]).readWord 1 = 0xEA00 ∧
    (Memory.placeWords (Memory.filled 4 0xEA00) 0 [0x0002]).readWord 3 = 0xEA00 := by decide

/-! ### Witnesses: every statement's hypotheses are met, at boundary values -/

theorem test_witness_DecodeProcedureTotal : (0x7FFF : Word).getLsbD 15 = false ∧
    ((0xFF80 : Word).getLsbD 15 = true ∧ (0xFF80 : Word).extractLsb' 6 6 ∈ illegalComps) ∧
    ((0x8000 : Word).getLsbD 15 = true ∧ (0x8000 : Word).extractLsb' 6 6 ∉ illegalComps) := by decide

theorem test_witness_DecodeOfEncode : WellFormed (.aLoad 0) = true ∧
    WellFormed (.cOr .memM ⟨true, true, true⟩ .jmp) = true := by decide

theorem test_witness_EncodeOfDecode : decodesTo 0x8000 (.cAnd .regA ⟨false, false, false⟩ .noj) = true ∧
    decodesTo 0x7FFF (.aLoad 32767) = true := by decide

theorem test_witness_Bits14And13Ignored : ((0x9C10 : Word).getLsbD 15 = true ∧ (0x6000 : Word) &&& 0x9FFF = 0 ∧
    Fetches (at10 0x9C10 0x0003 0x0002) 0x9C10) ∧ completes (at10 0x9C10 0x0003 0x0002) (fun _ => true) = true := by decide

theorem test_witness_StepRunsDecoded : Fetches { at10 0 1 2 with pc := 0x7FFF } 0x0000 ∧
    decodesTo 0x0000 (.aLoad 0) = true := by decide

theorem test_witness_AddressInstruction :
    Fetches { at10 0 1 2 with pc := 0x7FFF, rom := Memory.writeWord [] 0x7FFF 0x1234 } 0x1234 ∧
    (0x1234 : Word).getLsbD 15 = false := by decide

/-- Two states that differ in RAM and keyboard but not in what an instruction that reads M at 0x0007 depends on. -/
theorem test_witness_StepDependsOnlyOnItsInputs :
    let s1 := at10ram 0xF090 0x0007 0x0001 7 0x0005
    let s2 := { s1 with ram := Memory.writeWord s1.ram 8 0x0009, kbd := [0x0041] }
    s1 ≠ s2 ∧ romWord s1 s1.pc = romWord s2 s2.pc ∧ dataWord s1 s1.a = dataWord s2 s2.a ∧
      completes s1 (fun t => t.d == 0x0006) = true ∧
      faults { s1 with a := 0x6001 } (.badAddress .dataRead 0x6001 (some 0xF090)) = true := by decide

/-! The six compute statements share four clauses: a Word under each pattern, a read of an address just past the last,
a write of the first address that cannot be written, and the last addresses that can be read and written. -/

theorem test_witness_ConstantOperations : ((0xEA90 : Word) &&& 0x8FC0 = 0x8A80 ∧
    (0xEFE0 : Word) &&& 0x8FC0 = 0x8FC0 ∧
    (0xEE88 : Word) &&& 0x8FC0 = 0x8E80) ∧
    ¬ Readable .memM (at10 0 0x6001 0) ∧ (Readable .memM (at10 0 0x6000 0) ∧ ¬ Writable ⟨true, true, true⟩ (at10 0 0x6000 0)) ∧
    (Readable .memM (at10 0 0x5FFF 0) ∧ Writable ⟨true, true, true⟩ (at10 0 0x5FFF 0)) := by decide

theorem test_completes_cZero : (execCompletes (.cZero .memM ⟨false, true, false⟩ .jmp) (atKbd 0x0041) (fun t => t.kbd == []) &&
    execCompletes (.cZero .memM ⟨true, true, true⟩ .noj) (at10 0 0x5FFF 0) (fun t => t.pc == 0x0011)) = true := by decide

theorem test_completes_cOne : (execCompletes (.cOne .memM ⟨false, true, false⟩ .jmp) (atKbd 0x0041) (fun t => t.kbd == []) &&
    execCompletes (.cOne .memM ⟨true, true, true⟩ .noj) (at10 0 0x5FFF 0) (fun t => t.pc == 0x0011)) = true := by decide

theorem test_completes_cNeg1 : (execCompletes (.cNeg1 .memM ⟨false, true, false⟩ .jmp) (atKbd 0x0041) (fun t => t.kbd == []) &&
    execCompletes (.cNeg1 .memM ⟨true, true, true⟩ .noj) (at10 0 0x5FFF 0) (fun t => t.pc == 0x0011)) = true := by decide

theorem test_witness_MoveAndComplementOperations : ((0xE308 : Word) &&& 0x8FC0 = 0x8300 ∧
    (0xFC27 : Word) &&& 0x8FC0 = 0x8C00 ∧
    (0xE350 : Word) &&& 0x8FC0 = 0x8340 ∧
    (0xFC50 : Word) &&& 0x8FC0 = 0x8C40) ∧
    ¬ Readable .memM (at10 0 0x6001 0) ∧ (Readable .memM (at10 0 0x6000 0) ∧ ¬ Writable ⟨true, true, true⟩ (at10 0 0x6000 0)) ∧
    (Readable .memM (at10 0 0x5FFF 0) ∧ Writable ⟨true, true, true⟩ (at10 0 0x5FFF 0)) := by decide

theorem test_completes_cD : (execCompletes (.cD .memM ⟨false, true, false⟩ .jmp) (atKbd 0x0041) (fun t => t.kbd == []) &&
    execCompletes (.cD .memM ⟨true, true, true⟩ .noj) (at10 0 0x5FFF 0) (fun t => t.pc == 0x0011)) = true := by decide

theorem test_completes_cX : (execCompletes (.cX .memM ⟨false, true, false⟩ .jmp) (atKbd 0x0041) (fun t => t.kbd == []) &&
    execCompletes (.cX .memM ⟨true, true, true⟩ .noj) (at10 0 0x5FFF 0) (fun t => t.pc == 0x0011)) = true := by decide

theorem test_completes_cNotD : (execCompletes (.cNotD .memM ⟨false, true, false⟩ .jmp) (atKbd 0x0041) (fun t => t.kbd == []) &&
    execCompletes (.cNotD .memM ⟨true, true, true⟩ .noj) (at10 0 0x5FFF 0) (fun t => t.pc == 0x0011)) = true := by decide

theorem test_completes_cNotX : (execCompletes (.cNotX .memM ⟨false, true, false⟩ .jmp) (atKbd 0x0041) (fun t => t.kbd == []) &&
    execCompletes (.cNotX .memM ⟨true, true, true⟩ .noj) (at10 0 0x5FFF 0) (fun t => t.pc == 0x0011)) = true := by decide

theorem test_witness_NegationOperations : ((0xE3D0 : Word) &&& 0x8FC0 = 0x83C0 ∧
    (0xFCD0 : Word) &&& 0x8FC0 = 0x8CC0) ∧
    ¬ Readable .memM (at10 0 0x6001 0) ∧ (Readable .memM (at10 0 0x6000 0) ∧ ¬ Writable ⟨true, true, true⟩ (at10 0 0x6000 0)) ∧
    (Readable .memM (at10 0 0x5FFF 0) ∧ Writable ⟨true, true, true⟩ (at10 0 0x5FFF 0)) := by decide

theorem test_completes_cNegD : (execCompletes (.cNegD .memM ⟨false, true, false⟩ .jmp) (atKbd 0x0041) (fun t => t.kbd == []) &&
    execCompletes (.cNegD .memM ⟨true, true, true⟩ .noj) (at10 0 0x5FFF 0) (fun t => t.pc == 0x0011)) = true := by decide

theorem test_completes_cNegA : (execCompletes (.cNegA .memM ⟨false, true, false⟩ .jmp) (atKbd 0x0041) (fun t => t.kbd == []) &&
    execCompletes (.cNegA .memM ⟨true, true, true⟩ .noj) (at10 0 0x5FFF 0) (fun t => t.pc == 0x0011)) = true := by decide

theorem test_witness_IncrementAndDecrementOperations : ((0xE7D4 : Word) &&& 0x8FC0 = 0x87C0 ∧
    (0xFDC8 : Word) &&& 0x8FC0 = 0x8DC0 ∧
    (0xE390 : Word) &&& 0x8FC0 = 0x8380 ∧
    (0xFCA8 : Word) &&& 0x8FC0 = 0x8C80) ∧
    ¬ Readable .memM (at10 0 0x6001 0) ∧ (Readable .memM (at10 0 0x6000 0) ∧ ¬ Writable ⟨true, true, true⟩ (at10 0 0x6000 0)) ∧
    (Readable .memM (at10 0 0x5FFF 0) ∧ Writable ⟨true, true, true⟩ (at10 0 0x5FFF 0)) := by decide

theorem test_completes_cIncD : (execCompletes (.cIncD .memM ⟨false, true, false⟩ .jmp) (atKbd 0x0041) (fun t => t.kbd == []) &&
    execCompletes (.cIncD .memM ⟨true, true, true⟩ .noj) (at10 0 0x5FFF 0) (fun t => t.pc == 0x0011)) = true := by decide

theorem test_completes_cIncX : (execCompletes (.cIncX .memM ⟨false, true, false⟩ .jmp) (atKbd 0x0041) (fun t => t.kbd == []) &&
    execCompletes (.cIncX .memM ⟨true, true, true⟩ .noj) (at10 0 0x5FFF 0) (fun t => t.pc == 0x0011)) = true := by decide

theorem test_completes_cDecD : (execCompletes (.cDecD .memM ⟨false, true, false⟩ .jmp) (atKbd 0x0041) (fun t => t.kbd == []) &&
    execCompletes (.cDecD .memM ⟨true, true, true⟩ .noj) (at10 0 0x5FFF 0) (fun t => t.pc == 0x0011)) = true := by decide

theorem test_completes_cDecX : (execCompletes (.cDecX .memM ⟨false, true, false⟩ .jmp) (atKbd 0x0041) (fun t => t.kbd == []) &&
    execCompletes (.cDecX .memM ⟨true, true, true⟩ .noj) (at10 0 0x5FFF 0) (fun t => t.pc == 0x0011)) = true := by decide

theorem test_witness_AddAndSubtractOperations : ((0xE092 : Word) &&& 0x8FC0 = 0x8080 ∧
    (0xE4D0 : Word) &&& 0x8FC0 = 0x84C0 ∧
    (0xF1D0 : Word) &&& 0x8FC0 = 0x81C0) ∧
    ¬ Readable .memM (at10 0 0x6001 0) ∧ (Readable .memM (at10 0 0x6000 0) ∧ ¬ Writable ⟨true, true, true⟩ (at10 0 0x6000 0)) ∧
    (Readable .memM (at10 0 0x5FFF 0) ∧ Writable ⟨true, true, true⟩ (at10 0 0x5FFF 0)) := by decide

theorem test_completes_cAdd : (execCompletes (.cAdd .memM ⟨false, true, false⟩ .jmp) (atKbd 0x0041) (fun t => t.kbd == []) &&
    execCompletes (.cAdd .memM ⟨true, true, true⟩ .noj) (at10 0 0x5FFF 0) (fun t => t.pc == 0x0011)) = true := by decide

theorem test_completes_cSubDX : (execCompletes (.cSubDX .memM ⟨false, true, false⟩ .jmp) (atKbd 0x0041) (fun t => t.kbd == []) &&
    execCompletes (.cSubDX .memM ⟨true, true, true⟩ .noj) (at10 0 0x5FFF 0) (fun t => t.pc == 0x0011)) = true := by decide

theorem test_completes_cSubXD : (execCompletes (.cSubXD .memM ⟨false, true, false⟩ .jmp) (atKbd 0x0041) (fun t => t.kbd == []) &&
    execCompletes (.cSubXD .memM ⟨true, true, true⟩ .noj) (at10 0 0x5FFF 0) (fun t => t.pc == 0x0011)) = true := by decide

theorem test_witness_BitwiseOperations : ((0xE010 : Word) &&& 0x8FC0 = 0x8000 ∧
    (0xF548 : Word) &&& 0x8FC0 = 0x8540) ∧
    ¬ Readable .memM (at10 0 0x6001 0) ∧ (Readable .memM (at10 0 0x6000 0) ∧ ¬ Writable ⟨true, true, true⟩ (at10 0 0x6000 0)) ∧
    (Readable .memM (at10 0 0x5FFF 0) ∧ Writable ⟨true, true, true⟩ (at10 0 0x5FFF 0)) := by decide

theorem test_completes_cAnd : (execCompletes (.cAnd .memM ⟨false, true, false⟩ .jmp) (atKbd 0x0041) (fun t => t.kbd == []) &&
    execCompletes (.cAnd .memM ⟨true, true, true⟩ .noj) (at10 0 0x5FFF 0) (fun t => t.pc == 0x0011)) = true := by decide

theorem test_completes_cOr : (execCompletes (.cOr .memM ⟨false, true, false⟩ .jmp) (atKbd 0x0041) (fun t => t.kbd == []) &&
    execCompletes (.cOr .memM ⟨true, true, true⟩ .noj) (at10 0 0x5FFF 0) (fun t => t.pc == 0x0011)) = true := by decide

theorem test_witness_JumpCodes_taken : (0xE307 : Word).getLsbD 15 = true ∧
    decodesTo 0xE307 (.cD .regA ⟨false, false, false⟩ .jmp) = true ∧
    ¬ Readable .memM (at10 0 0x6001 0) ∧
    execCompletes (.cD .regA ⟨false, false, false⟩ .jlt) (at10 0 0x0020 0x8000) (fun t => t.pc == 0x0020) = true ∧
    execCompletes (.cD .regA ⟨false, false, false⟩ .jgt) (at10 0 0x0020 0x8000) (fun t => t.pc == 0x0011) = true := by decide

/-- The worked examples' premises, for all eight Words. -/
theorem test_witness_JumpCodes_worked : ∀ c : BitVec 3, Fetches (at10 (0xE300 ||| c.setWidth 16) 0x0020 0xFFFF) (0xE300 ||| c.setWidth 16) ∧
    (at10 (0xE300 ||| c.setWidth 16) 0x0020 0xFFFF).pc = 0x0010 := by decide

theorem test_witness_TakenJumpGoesToNewA : execCompletes (.cNeg1 .regA ⟨true, false, false⟩ .jmp) (at10 0 0x0020 0x0005)
    (fun t => t.pc == 0xFFFF && t.a == 0xFFFF) = true ∧ jumpTaken .jmp 0xFFFF = true := by decide

theorem test_witness_DestFlagsTable : [0xE080, 0xE088, 0xE090, 0xE098, 0xE0A0, 0xE0A8, 0xE0B0, 0xE0B8].all
    (fun w => decide (Fetches (at10 w 0x0003 0x0002) w)) = true := by decide

theorem test_witness_WhoWritesAAndD : execCompletes (.cIncD .regA ⟨true, true, false⟩ .noj) (at10 0 0x0009 0x0002)
    (fun t => t.d != 0x0002 && t.a != 0x0009) = true ∧
    execCompletes (.aLoad 5) (at10 0 0x0009 0x0002) (fun t => t.a != 0x0009) = true := by decide

theorem test_witness_FetchReadsInstructionStore : uval 0x7FFF ≤ 0x7FFF ∧ 0x7FFF < uval 0x8000 ∧
    ifetch 0x8000 { at10 0 0 0 with pc := 0x8000 } = .error (.badAddress .fetch 0x8000 none) ∧
    (ifetch 0x0010 (at10 0x0007 0 0) = .ok 0x0007 ∧ decodesTo 0x0007 (.aLoad 7) = true) ∧
    (ifetch 0x0010 (at10 0xE050 0 0) = .ok 0xE050 ∧ rejects 0xE050 = true) := by decide

theorem test_witness_DispatcherRead : uval 0x6000 = 0x6000 ∧ (0x4000 ≤ uval 0x4000 ∧ uval 0x4000 ≤ 0x5FFF) ∧
    (0x4000 ≤ uval 0x5FFF ∧ uval 0x5FFF ≤ 0x5FFF) ∧ uval 0x3FFF ≤ 0x3FFF ∧ 0x6000 < uval 0x6001 := by decide

theorem test_witness_DispatcherWrite : uval 0x3FFF ≤ 0x3FFF ∧ (0x4000 ≤ uval 0x4000 ∧ uval 0x5FFF ≤ 0x5FFF) ∧
    0x6000 ≤ uval 0x6000 := by decide

theorem test_witness_ReadReturnsLatestWrite :
    (match memWrite 0x3FFF 0x1111 State.reset with | .ok t => t != State.reset | .error _ => false) = true ∧
    (match memWrite 0x4000 0x1111 State.reset with | .ok t => t != State.reset | .error _ => false) = true ∧
    (0x4000 : Word) ≠ 0x3FFF ∧ uval 0x5FFF ≤ 0x5FFF ∧
    (match memRead 0x5FFF State.reset with | .ok (w, t) => w == 0 && t == State.reset | .error _ => false) = true := by decide

theorem test_witness_KeyboardReadDrawsNextWord : uval (at10 0 0x6000 0).a = 0x6000 ∧ (at10 0 0x6000 0).kbd = [] ∧
    ({ at10 0 0x6000 0 with kbd := [0x0041] } : State).kbd = 0x0041 :: [] := by decide

theorem test_witness_completed_step : (at10 0xE308 0x3FFF 0x1234).inv = true ∧
    completes (at10 0xE308 0x3FFF 0x1234) (fun t => t.ram.readWord 0x3FFF == 0x1234 && t.inv) = true ∧
    (match memWrite 0x5FFF 1 (at10 0xE308 0x3FFF 0x1234) with | .ok _ => true | .error _ => false) = true := by decide

theorem test_witness_RunsKeepInvariantAndStore : (match Host.Core.run Sys2Proof.core 2 (at10 0xE308 0x3FFF 0x1234) with
    | .next t => t.pc == 0x0012 | .fault _ => false | .refused _ => false) = true := by decide

theorem test_witness_PixelsCoverFramebuffer : pixelAddress 0 0 = 0x4000 ∧ pixelAddress 255 511 = 0x5FFF := by decide

theorem test_witness_FetchFaultAndItsTwoCauses : 0x7FFF < uval ({ at10 0 0 0 with pc := 0x8000 } : State).pc ∧
    faults { at10 0 0 0 with pc := 0x8000 } (.badAddress .fetch 0x8000 none) = true ∧
    completes { at10 0 0 0 with pc := 0x7FFF } (fun t => t.pc == 0x8000) = true ∧
    completes (at10 0xEEA7 0x0020 0x0005) (fun t => t.pc == 0xFFFF) = true := by decide

theorem test_witness_FaultPriority : 0x7FFF < uval ({ at10 0 0 0 with pc := 0x8000 } : State).pc ∧
    (Fetches (at10 0xF048 0x7000 0) 0xF048 ∧ rejects 0xF048 = true) ∧
    (Fetches (at10 0xFC08 0x6001 0) 0xFC08 ∧ ¬ Readable .memM (at10 0xFC08 0x6001 0)) ∧
    (Fetches (at10 0xFC08 0x6000 0) 0xFC08 ∧ Readable .memM (at10 0xFC08 0x6000 0) ∧
      ¬ Writable ⟨false, false, true⟩ (at10 0xFC08 0x6000 0)) ∧
    decodesTo 0xFC08 (.cX .memM ⟨false, false, true⟩ .noj) = true := by decide

theorem test_witness_StepCompletesUnlessACauseApplies : (at10 0xFC08 0x5FFF 0).canStep = true ∧
    (at10 0xFC08 0x6000 0).canStep = false := by decide

theorem test_witness_HostActionsKeepInvariant : State.reset.inv = true ∧
    ((State.reset.hostWriteRam 0x3FFF 1).isSome && (State.reset.loadProgram 0xEA87 [1, 2]).isSome) = true := by decide

theorem test_witness_LoadTextPlacesLines :
    (State.reset.loadText 0xEA87 ["0000000000000010".toList]).isSome = true ∧
    (["0000000000000010".toList].length ≤ 1 ∧ 1 < 32768) ∧ ([] : List (List Char)).length ≤ 32768 ∧
    (State.reset.loadText 0xEA87 ["0000000000000010".toList, "x".toList]).isSome = false ∧ parseLine "x".toList = none ∧
    (["0000000000000010".toList].drop 0).head? = some "0000000000000010".toList := by decide

theorem test_witness_HostMemoryActions : uval 0x3FFF ≤ 0x3FFF ∧ 0x3FFF < uval 0x4000 := by decide

/-- The loop of R147 at 0x0010: the A.LOAD of 0x0010, then 0xEA87. -/
theorem test_witness_EndLoopIsFinal :
    ({ at10 0x0010 0xAAAA 5 with rom := Memory.placeWords [] 0x10 [0x0010, 0xEA87] } : State).atEndLoop = true := by decide

/-- Two stores that differ in the Word after the fetched one only. -/
theorem test_witness_FetchIsTheOnlyStoreAccess : 0x7FFF < uval ({ at10 0 0 0 with pc := 0x8000 } : State).pc ∧
    let s := at10 0xE308 0x3FFF 0x1234
    let rom := Memory.writeWord s.rom 0x0011 0xE050
    rom ≠ s.rom ∧ rom.readWord (uval s.pc) = s.rom.readWord (uval s.pc) ∧ completes s (fun _ => true) = true ∧
      faults (at10 0xFC08 0x6000 0) (.badAddress .dataWrite 0x6000 (some 0xFC08)) = true := by decide

theorem test_witness_Bit15SelectsFormat : decodesTo 0x7FFF (.aLoad 32767) = true ∧
    decodesTo 0x8000 (.cAnd .regA ⟨false, false, false⟩ .noj) = true ∧
    Fetches (at10 0xE308 0x3FFF 0x1234) 0xE308 ∧
    Fetches { at10 0 1 2 with pc := 0x7FFF, rom := Memory.writeWord [] 0x7FFF 0xE308 } 0xE308 := by decide

end Sys2Proof.Tests
end

section
/-! SUPPORT. Memory (`20_memory.md`): what a fetch reads, how it ends or continues a step (R31), and that nothing but
loading changes the Instruction Store (R48). -/

namespace Sys2Proof.Machine

/-- A fault of the fetch is the step's. -/
theorem step_of_ifetch_error {s : State} {f : Fault} (h : ifetch s.pc s = .error f) : step s = .fault f := by
  simp only [step, fetchDecode, h, raise]

/-- A fetched Word that decodes is the instruction the step runs. -/
theorem step_of_decode_ok {s : State} {w : Word} {i : Instr} (h : ifetch s.pc s = .ok w) (hd : decode w = .ok i) :
    step s = exec i s := by
  simp only [step, fetchDecode, h, hd]

theorem eq_badInstruction_of_decode_error {w : Word} {e : DecodeReject} (h : decode w = .error e) :
    e = .badInstruction w := by
  unfold decode at h
  split at h
  · split at h
    · cases h
    · cases h; rfl
  · cases h

/-- A fetched Word that is rejected is the one the step's fault names. -/
theorem step_of_decode_error {s : State} {w : Word} {e : DecodeReject} (h : ifetch s.pc s = .ok w)
    (hd : decode w = .error e) : step s = .fault (.badInstruction w) := by
  obtain rfl := eq_badInstruction_of_decode_error hd
  simp only [step, fetchDecode, h, hd, raise]

/-- Settles O20, by the two cases of the fetch and the three ends of a step's fetch and decode. -/
theorem fetchReadsInstructionStore : Obligations.FetchReadsInstructionStore := fun _ _ =>
  ⟨ifetch_of_le, ifetch_of_gt, fun _ => step_of_ifetch_error, fun _ _ => step_of_decode_ok,
    fun _ _ => step_of_decode_error⟩

/-- A fetch depends on the Instruction Store alone. -/
theorem ifetch_eq_of_rom_eq {s t : State} (h : t.rom = s.rom) (p : Word) : ifetch p t = ifetch p s := by
  simp only [ifetch, romWord, h]

theorem exec_next_rom {i : Instr} {s t : State} (h : exec i s = .next t) : t.rom = s.rom := by
  obtain ⟨imm15, -, rfl⟩ | ⟨x, dest, jump, r, -, -, -, -, heff, -⟩ := exec_next_cases h
  · simp
  · exact heff.rom

theorem step_next_rom {s t : State} (h : step s = .next t) : t.rom = s.rom := by
  obtain ⟨-, i, -, he⟩ := step_next_cases h
  exact exec_next_rom he

/-- The inversion of the dispatcher's write (R34): it stored one Word in RAM or one in the framebuffer. -/
theorem memWrite_ok_cases {s t : State} {addr v : Word} (h : memWrite addr v s = .ok t) :
    (uval addr ≤ 0x3FFF ∧ t = s.setRam (s.ram.writeWord (uval addr) v)) ∨
    (0x4000 ≤ uval addr ∧ uval addr ≤ 0x5FFF ∧ t = s.setFb (s.fb.writeWord (uval addr - 0x4000) v)) := by
  by_cases hram : uval addr ≤ 0x3FFF
  · rw [memWrite_ram hram] at h
    cases h
    exact .inl ⟨hram, rfl⟩
  · have hge : 0x4000 ≤ uval addr := by omega
    by_cases hfb : uval addr ≤ 0x5FFF
    · rw [memWrite_fb hge hfb] at h
      cases h
      exact .inr ⟨hge, hfb, rfl⟩
    · rw [memWrite_of_gt (Nat.not_le.mp hfb)] at h
      cases h

theorem memWrite_ok_rom {s t : State} {addr v : Word} (h : memWrite addr v s = .ok t) : t.rom = s.rom := by
  obtain ⟨-, rfl⟩ | ⟨-, -, rfl⟩ := memWrite_ok_cases h <;> simp

/-- The host's write (R144) is the dispatcher's, on RAM addresses only. -/
theorem memWrite_of_hostWriteRam {s t : State} {i v : Word} (h : s.hostWriteRam i v = some t) :
    uval i ≤ 0x3FFF ∧ memWrite i v s = .ok t := by
  unfold State.hostWriteRam at h
  split at h
  · next hi =>
    rw [memWrite_ram hi] at h ⊢
    cases h
    exact ⟨hi, rfl⟩
  · cases h

/-- Settles O25: every instruction and every write keeps the store, and a fetch depends on nothing else. -/
theorem storesAreNeverFetched : Obligations.StoresAreNeverFetched := by
  refine ⟨fun _ _ => step_next_rom, fun _ _ _ => exec_next_rom, fun s t i v => ⟨?reset, ?clear, ?keyboard, ?write⟩,
    fun s t addr v h => ifetch_eq_of_rom_eq (memWrite_ok_rom h)⟩
  case reset => exact State.setPc_rom s 0
  case clear => exact State.setRam_rom s []
  case keyboard => exact fun _ => rfl
  case write => exact fun h => memWrite_ok_rom (memWrite_of_hostWriteRam h).2

end Sys2Proof.Machine
end

section
/-! SUPPORT. The step and the address instruction (`40_step_and_address_instruction.md`): what fetch and decode depend
on (R72), the two formats, and that a step carries over to every other Instruction Store with the same Word at PC
(R71). -/

namespace Sys2Proof.Machine

open Sys2Proof.Claims (Fetches)

/-- The Word fetched is all that fetch and decode depend on. -/
theorem fetchDecode_eq_of_fetches {s1 s2 : State} {w : Word} (h1 : Fetches s1 w) (h2 : Fetches s2 w) :
    fetchDecode s1 = fetchDecode s2 := by
  obtain ⟨hpc1, hw1⟩ := h1
  obtain ⟨hpc2, hw2⟩ := h2
  rw [fetchDecode, fetchDecode, ifetch_of_le hpc1, ifetch_of_le hpc2, hw1, hw2]

/-- Every row of the opcode map's compute part makes a compute instruction with the fields it is given. -/
theorem computeFields_of_mem_compTable :
    ∀ row ∈ compTable, ∀ x dest jump, computeFields (row.2 x dest jump) = some (x, dest, jump) := by
  simp [compTable, computeFields]

/-- The inversion of decode: bit 15 is 0 and the Word is an A.LOAD, or it is 1 and the Word is a compute instruction
with the Word's own fields. -/
theorem decode_ok_cases {w : Word} {i : Instr} (h : decode w = .ok i) :
    (w.getLsbD 15 = false ∧ i = .aLoad (w.extractLsb' 0 15).toNat) ∨
    (w.getLsbD 15 = true ∧ computeFields i = some (fieldX w, fieldDest w, fieldJump w)) := by
  unfold decode at h
  split at h
  · next hbit =>
    split at h
    · next mk hmk =>
      cases h
      obtain ⟨l1, l2, hl, -⟩ := List.lookup_eq_some_iff.mp hmk
      exact .inr ⟨hbit, computeFields_of_mem_compTable (fieldComp w, mk) (by simp [hl]) _ _ _⟩
    · cases h
  · next hbit =>
    cases h
    exact .inl ⟨Bool.eq_false_of_not_eq_true hbit, rfl⟩

/-- Settles O41, by the two formats of a Word that decodes. -/
theorem bit15SelectsFormat : Obligations.Bit15SelectsFormat := by
  refine ⟨fun w i h => ?_, fun _ _ _ => fetchDecode_eq_of_fetches⟩
  obtain ⟨hbit, rfl⟩ | ⟨hbit, hfields⟩ := decode_ok_cases h
  · have hnot : ¬ ∃ x dest jump, computeFields (.aLoad (w.extractLsb' 0 15).toNat) = some (x, dest, jump) := by
      rintro ⟨x, dest, jump, hfields⟩
      cases hfields
    exact ⟨iff_of_true hbit ⟨_, rfl⟩, iff_of_false (ne_true_of_eq_false hbit) hnot⟩
  · have hnot : ¬ ∃ imm15, i = .aLoad imm15 := by
      rintro ⟨imm15, rfl⟩
      cases hfields
    exact ⟨iff_of_false (ne_false_of_eq_true hbit) hnot, iff_of_true hbit ⟨_, _, _, hfields⟩⟩

/-- The outcome with another Instruction Store in the next state; a fault has none. -/
def outcomeSetRom (rom : Memory) : Host.Outcome State Fault Refusal → Host.Outcome State Fault Refusal
  | .next t => .next (t.setRom rom)
  | .fault f => .fault f
  | .refused r => .refused r

/-- The Word a fault record carries is the one at PC, so it is the same in any store that holds it there. -/
theorem instrWord_setRom {s : State} {rom : Memory}
    (h : rom.readWord (uval s.pc) = s.rom.readWord (uval s.pc)) : instrWord (s.setRom rom) = instrWord s := by
  simp only [instrWord, romWord, State.setRom_pc, State.setRom_rom, h]

/-- A compute instruction's effect, with the two memories it leaves, settles every field of the next state; so from
another store it leads to the same state but for the store. -/
theorem ComputeEffect.eq_setRom {s t u : State} {rom : Memory} {x : XSource} {dest : Dest} {jump : Jump} {r : Word}
    (ht : ComputeEffect s t x dest jump r) (hu : ComputeEffect (s.setRom rom) u x dest jump r)
    (hram : u.ram = t.ram) (hfb : u.fb = t.fb) : u = t.setRom rom := by
  have ha : u.a = t.a := hu.regA.trans ht.regA.symm
  have hd : u.d = t.d := hu.regD.trans ht.regD.symm
  have hpc : u.pc = t.pc := by rw [hu.pc, ht.pc, ha, State.setRom_pc]
  have hrom : u.rom = rom := hu.rom
  have hkbd : u.kbd = t.kbd := hu.kbd.trans ht.kbd.symm
  have hreads : u.kbdReads = t.kbdReads := hu.kbdReads.trans ht.kbdReads.symm
  calc u = ⟨u.a, u.d, u.pc, u.rom, u.ram, u.fb, u.kbd, u.kbdReads⟩ := rfl
    _ = ⟨t.a, t.d, t.pc, rom, t.ram, t.fb, t.kbd, t.kbdReads⟩ := by rw [ha, hd, hpc, hrom, hram, hfb, hkbd, hreads]
    _ = t.setRom rom := rfl

/-- A compute instruction reads no store but for the Word its fault record carries. -/
theorem compute_setRom {s : State} {rom : Memory} (h : rom.readWord (uval s.pc) = s.rom.readWord (uval s.pc))
    (op : Word → Word → Word → Word) (x : XSource) (dest : Dest) (jump : Jump) :
    compute op x dest jump (s.setRom rom) = outcomeSetRom rom (compute op x dest jump s) := by
  by_cases hr : Readable x s
  · by_cases hw : Writable dest s
    · obtain ⟨t, ht, hteff, htram, htfb⟩ := compute_next (op := op) (jump := jump) hr hw
      obtain ⟨u, hu, hueff, huram, hufb⟩ := compute_next (s := s.setRom rom) (op := op) (jump := jump) hr hw
      rw [ht, hu, hteff.eq_setRom hueff (huram.trans htram.symm) (hufb.trans htfb.symm)]
      rfl
    · rw [compute_writeFault hr hw, compute_writeFault (s := s.setRom rom) hr hw, instrWord_setRom h]
      rfl
  · rw [compute_readFault hr, compute_readFault (s := s.setRom rom) hr, instrWord_setRom h]
    rfl

theorem exec_setRom {s : State} {rom : Memory} (h : rom.readWord (uval s.pc) = s.rom.readWord (uval s.pc))
    (i : Instr) : exec i (s.setRom rom) = outcomeSetRom rom (exec i s) := by
  cases hf : computeFields i with
  | none =>
    obtain ⟨imm15, rfl⟩ := eq_aLoad_of_no_fields hf
    rw [exec_aLoad, exec_aLoad]
    rfl
  | some fields =>
    obtain ⟨x, dest, jump⟩ := fields
    obtain ⟨op, -, he⟩ := exec_compute hf
    rw [he, he, compute_setRom h]

theorem step_of_pc_gt {s : State} (h : 0x7FFF < uval s.pc) : step s = .fault (.badAddress .fetch s.pc none) :=
  step_of_ifetch_error (ifetch_of_gt h)

/-- The Word at PC is all of the Instruction Store that a step's outcome depends on (R71). -/
theorem step_setRom {s : State} {rom : Memory} (h : rom.readWord (uval s.pc) = s.rom.readWord (uval s.pc)) :
    step (s.setRom rom) = outcomeSetRom rom (step s) := by
  by_cases hpc : uval s.pc ≤ 0x7FFF
  · have hfetch : fetchDecode (s.setRom rom) = fetchDecode s := fetchDecode_eq_of_fetches ⟨hpc, h⟩ ⟨hpc, rfl⟩
    rw [step, step, hfetch]
    cases fetchDecode s with
    | error f => rfl
    | ok i => exact exec_setRom h i
  · have hgt : 0x7FFF < uval s.pc := Nat.not_le.mp hpc
    rw [step_of_pc_gt hgt, step_of_pc_gt (s := s.setRom rom) hgt]
    rfl

/-- Settles O40: out of range the fetch faults; otherwise the step's outcome carries over to the other store. -/
theorem fetchIsTheOnlyStoreAccess : Obligations.FetchIsTheOnlyStoreAccess := by
  refine fun s rom => ⟨step_of_pc_gt (s := s.setRom rom), fun h => ⟨fun t ht => ?next, fun f hf => ?fault⟩⟩
  case next => exact (step_setRom h).trans (congrArg (outcomeSetRom rom) ht)
  case fault => exact (step_setRom h).trans (congrArg (outcomeSetRom rom) hf)

end Sys2Proof.Machine
end

section
/-! SUPPORT. Encoding and the decoder (`30_encoding.md`): the fields of an encoded Word, the rows of the opcode map's
compute part, and that decode and encode agree in both directions (R51 to R54, R56, R59). -/

namespace Sys2Proof.Machine

/-- The match value of a compute row (R56): bit 15, and `comp` at bits 11..6. -/
def compPattern (comp : BitVec 6) : Word := 1#1 ++ 0#3 ++ comp ++ 0#6

/-! ### The fields of a compute Word -/

theorem jumpOfCode_codeJump (jump : Jump) : jumpOfCode (codeJump jump) = jump := by cases jump <;> rfl

theorem codeJump_jumpOfCode : ∀ c : BitVec 3, codeJump (jumpOfCode c) = c := by decide

theorem codeJump_fieldJump (w : Word) : codeJump (fieldJump w) = w.extractLsb' 0 3 := codeJump_jumpOfCode _

theorem fieldJump_eq_iff {w : Word} {jump : Jump} : fieldJump w = jump ↔ w.extractLsb' 0 3 = codeJump jump := by
  rw [← codeJump_fieldJump]
  exact ⟨congrArg codeJump, fun h => by rw [← jumpOfCode_codeJump (fieldJump w), h, jumpOfCode_codeJump]⟩

theorem getLsbD_fieldComp {w : Word} {k : Nat} (h : k < 6) : (fieldComp w).getLsbD k = w.getLsbD (6 + k) := by
  rw [fieldComp, BitVec.getLsbD_extractLsb', decide_eq_true h, Bool.true_and]

section Encoded

variable (comp : BitVec 6) (x : XSource) (dest : Dest) (jump : Jump)

/-- Which field each bit of an encoded compute Word belongs to (R52). -/
theorem getLsbD_encodeCompute (k : Nat) : (encodeCompute comp x dest jump).getLsbD k =
    if k < 3 then (codeJump jump).getLsbD k
    else if k < 6 then (codeDest dest).getLsbD (k - 3)
    else if k < 12 then comp.getLsbD (k - 6)
    else if k < 13 then (codeX x).getLsbD (k - 12)
    else (0b111#3).getLsbD (k - 13) := by
  rw [encodeCompute, BitVec.getLsbD_append, BitVec.getLsbD_append, BitVec.getLsbD_append, BitVec.getLsbD_append]
  grind

theorem getLsbD_fifteen_encodeCompute : (encodeCompute comp x dest jump).getLsbD 15 = true := by
  rw [getLsbD_encodeCompute]
  rfl

theorem fieldComp_encodeCompute : fieldComp (encodeCompute comp x dest jump) = comp := by
  apply BitVec.eq_of_getLsbD_eq
  intro k hk
  rw [getLsbD_fieldComp hk, getLsbD_encodeCompute, if_neg (by omega), if_neg (by omega), if_pos (by omega),
    Nat.add_sub_cancel_left]

theorem fieldX_encodeCompute : fieldX (encodeCompute comp x dest jump) = x := by
  rw [fieldX, getLsbD_encodeCompute]
  cases x <;> rfl

theorem fieldDest_encodeCompute : fieldDest (encodeCompute comp x dest jump) = dest := by
  obtain ⟨a, d, m⟩ := dest
  simp only [fieldDest, getLsbD_encodeCompute]
  cases a <;> cases d <;> cases m <;> rfl

theorem fieldJump_encodeCompute : fieldJump (encodeCompute comp x dest jump) = jump := by
  rw [fieldJump_eq_iff]
  apply BitVec.eq_of_getLsbD_eq
  intro k hk
  rw [BitVec.getLsbD_extractLsb', Nat.zero_add, getLsbD_encodeCompute, if_pos hk, decide_eq_true hk, Bool.true_and]

end Encoded

theorem getLsbD_compPattern (comp : BitVec 6) (k : Nat) : (compPattern comp).getLsbD k =
    if k < 6 then false else if k < 12 then comp.getLsbD (k - 6) else decide (k = 15) := by
  rw [compPattern, BitVec.getLsbD_append, BitVec.getLsbD_append, BitVec.getLsbD_append]
  have h1 : (1#1).getLsbD (k - 6 - 6 - 3) = decide (k - 6 - 6 - 3 = 0) := by simp
  grind

/-- The mask of the opcode map keeps bit 15 and `comp`. -/
theorem getLsbD_and_mask (w : Word) (k : Nat) : (w &&& 0x8FC0).getLsbD k =
    if k < 6 then false else if k < 12 then w.getLsbD k else decide (k = 15) && w.getLsbD 15 := by
  rw [BitVec.getLsbD_and]
  by_cases hk : k < 16
  · have hmask : ∀ k < 16, (0x8FC0 : Word).getLsbD k = (decide (6 ≤ k ∧ k < 12) || decide (k = 15)) := by decide
    rw [hmask k hk]
    grind
  · rw [BitVec.getLsbD_of_ge w k (by omega)]
    grind

/-- What the mask of the opcode map keeps of a Word is a row's match value exactly for the compute Words with the
row's `comp`. -/
theorem and_mask_eq_compPattern_iff {w : Word} {comp : BitVec 6} :
    w &&& 0x8FC0 = compPattern comp ↔ w.getLsbD 15 = true ∧ fieldComp w = comp := by
  constructor
  · intro h
    have hbit (k : Nat) := congrArg (fun v : Word => v.getLsbD k) h
    simp only [getLsbD_and_mask, getLsbD_compPattern] at hbit
    refine ⟨hbit 15, BitVec.eq_of_getLsbD_eq fun k hk => ?_⟩
    have hk6 := hbit (6 + k)
    rwa [if_neg (by omega), if_pos (by omega), if_neg (by omega), if_pos (by omega), Nat.add_sub_cancel_left,
      ← getLsbD_fieldComp hk] at hk6
  · rintro ⟨h15, rfl⟩
    apply BitVec.eq_of_getLsbD_eq
    intro k hk
    rw [getLsbD_and_mask, getLsbD_compPattern, h15, Bool.and_true]
    split
    · rfl
    · split
      · rw [getLsbD_fieldComp (by omega), Nat.add_sub_cancel' (by omega)]
      · rfl

/-! ### The rows of the opcode map -/

theorem mem_compTable_of_lookup {comp : BitVec 6} {mk : XSource → Dest → Jump → Instr}
    (h : compTable.lookup comp = some mk) : (comp, mk) ∈ compTable := by
  obtain ⟨l1, l2, hl, -⟩ := List.lookup_eq_some_iff.mp h
  simp [hl]

/-- A row's instruction has the row's Words, the row's match and mask values, and no check to pass. -/
theorem encode_of_mem_compTable : ∀ row ∈ compTable, ∀ x dest jump,
    encode (row.2 x dest jump) = encodeCompute row.1 x dest jump ∧
      opcodeRow (row.2 x dest jump) = (compPattern row.1, 0x8FC0) ∧ WellFormed (row.2 x dest jump) = true := by
  simp [compTable, encode, opcodeRow, compPattern, WellFormed]

/-- Every compute instruction is in a row of the opcode map, and its Word is the row's. -/
theorem exists_row_of_computeFields {i : Instr} {x : XSource} {dest : Dest} {jump : Jump}
    (h : computeFields i = some (x, dest, jump)) :
    ∃ comp mk, encode i = encodeCompute comp x dest jump ∧ compTable.lookup comp = some mk ∧ i = mk x dest jump := by
  cases i with
  | aLoad imm15 => cases h
  | cZero | cOne | cNeg1 | cD | cX | cNotD | cNotX | cNegD | cNegA | cIncD | cIncX | cDecD | cDecX | cAdd | cSubDX
    | cSubXD | cAnd | cOr =>
    cases h
    exact ⟨_, _, rfl, rfl, rfl⟩

/-- The opcode map's 18 values and the 46 of R59's list are complementary. -/
theorem mem_illegalComps_iff (comp : BitVec 6) : comp ∈ Claims.illegalComps ↔ compTable.lookup comp = none := by
  have h : ∀ c : BitVec 6, decide (c ∈ Claims.illegalComps) = (compTable.lookup c).isNone := by decide
  rw [← Option.isNone_iff_eq_none, ← h, decide_eq_true_eq]

theorem decode_of_lookup {w : Word} {mk : XSource → Dest → Jump → Instr} (h15 : w.getLsbD 15 = true)
    (h : compTable.lookup (fieldComp w) = some mk) : decode w = .ok (mk (fieldX w) (fieldDest w) (fieldJump w)) := by
  rw [decode, if_pos h15, h]

theorem decode_of_lookup_none {w : Word} (h15 : w.getLsbD 15 = true) (h : compTable.lookup (fieldComp w) = none) :
    decode w = .error (.badInstruction w) := by
  rw [decode, if_pos h15, h]

theorem decode_address {w : Word} (h15 : w.getLsbD 15 = false) :
    decode w = .ok (.aLoad (w.extractLsb' 0 15).toNat) := by
  rw [decode, if_neg (ne_true_of_eq_false h15)]

/-! ### Decode and encode -/

theorem decode_encodeCompute {comp : BitVec 6} {mk : XSource → Dest → Jump → Instr}
    (h : compTable.lookup comp = some mk) (x : XSource) (dest : Dest) (jump : Jump) :
    decode (encodeCompute comp x dest jump) = .ok (mk x dest jump) := by
  rw [decode_of_lookup (getLsbD_fifteen_encodeCompute comp x dest jump) (by rwa [fieldComp_encodeCompute]),
    fieldX_encodeCompute, fieldDest_encodeCompute, fieldJump_encodeCompute]

theorem getLsbD_encode_aLoad (imm15 k : Nat) :
    (encode (.aLoad imm15)).getLsbD k = (BitVec.ofNat 15 imm15).getLsbD k := by
  rw [encode, BitVec.getLsbD_append]
  split
  · rfl
  · next h => simp [BitVec.getLsbD_of_ge _ k (Nat.not_lt.mp h)]

theorem decode_encode_aLoad {imm15 : Nat} (h : imm15 ≤ 32767) :
    decode (encode (.aLoad imm15)) = .ok (.aLoad imm15) := by
  have hlow : (encode (.aLoad imm15)).extractLsb' 0 15 = BitVec.ofNat 15 imm15 := by
    apply BitVec.eq_of_getLsbD_eq
    intro k hk
    rw [BitVec.getLsbD_extractLsb', Nat.zero_add, getLsbD_encode_aLoad, decide_eq_true hk, Bool.true_and]
  rw [decode_address ((getLsbD_encode_aLoad imm15 15).trans (BitVec.getLsbD_of_ge _ _ (Nat.le_refl 15))), hlow,
    BitVec.toNat_ofNat, Nat.mod_eq_of_lt (by omega)]

/-- Settles O2: A.LOAD by its immediate's range, every other instruction by the row of the opcode map it is in. -/
theorem decodeOfEncode : Obligations.DecodeOfEncode := by
  intro i hwf
  cases hf : computeFields i with
  | none =>
    obtain ⟨imm15, rfl⟩ := eq_aLoad_of_no_fields hf
    exact decode_encode_aLoad (of_decide_eq_true hwf)
  | some fields =>
    obtain ⟨x, dest, jump⟩ := fields
    obtain ⟨comp, mk, henc, hmk, hi⟩ := exists_row_of_computeFields hf
    rw [henc, hi, decode_encodeCompute hmk]

/-- Settles O1: bit 15 clear is A.LOAD; set, the Word is in a row of the opcode map or its `comp` is in R59's list. -/
theorem decodeProcedureTotal : Obligations.DecodeProcedureTotal := by
  refine fun w => ⟨fun h15 => ?address, fun h15 hbad => ?illegal, fun h15 hgood => ?compute⟩
  case address =>
    have hlow : (w.extractLsb' 0 15).toNat = (w &&& 0x7FFF).toNat := by
      rw [BitVec.extractLsb'_toNat, BitVec.toNat_and, Nat.shiftRight_zero]
      exact (Nat.and_two_pow_sub_one_eq_mod w.toNat 15).symm
    rw [decode_address h15, hlow]
  case illegal => exact decode_of_lookup_none h15 ((mem_illegalComps_iff _).mp hbad)
  case compute =>
    obtain ⟨mk, hmk⟩ := Option.ne_none_iff_exists'.mp fun h => hgood ((mem_illegalComps_iff _).mpr h)
    have hrow := mem_compTable_of_lookup hmk
    refine ⟨_, fieldX w, fieldDest w, fieldJump w, decode_of_lookup h15 hmk, ?mask,
      computeFields_of_mem_compTable _ hrow _ _ _, ?source, ⟨rfl, rfl, rfl⟩, codeJump_fieldJump w⟩
    case mask =>
      rw [(encode_of_mem_compTable _ hrow _ _ _).2.1]
      exact and_mask_eq_compPattern_iff.mpr ⟨h15, rfl⟩
    case source => simp [fieldX]

/-- Encoding a compute Word's own fields gives the Word with bits 14..13 set (log 14). -/
theorem encodeCompute_fields {w : Word} (h15 : w.getLsbD 15 = true) :
    encodeCompute (fieldComp w) (fieldX w) (fieldDest w) (fieldJump w) = w ||| 0x6000 := by
  have hx : codeX (fieldX w) = BitVec.ofBool (w.getLsbD 12) := by
    rw [fieldX]
    cases w.getLsbD 12 <;> rfl
  apply BitVec.eq_of_getLsbD_eq
  intro k hk
  rw [getLsbD_encodeCompute, codeJump_fieldJump, hx]
  simp only [fieldComp, fieldDest, codeDest, BitVec.getLsbD_or, BitVec.getLsbD_append, BitVec.getLsbD_extractLsb']
  interval_cases k <;> simp [h15]

/-- Settles O3, by the two formats of a Word that decodes. -/
theorem encodeOfDecode : Obligations.EncodeOfDecode := by
  intro w i h
  cases h15 : w.getLsbD 15 with
  | false =>
    rw [decode_address h15] at h
    cases h
    refine ⟨?_, ?_⟩
    · have hlt := (w.extractLsb' 0 15).isLt
      exact decide_eq_true (by omega)
    · apply BitVec.eq_of_getLsbD_eq
      intro k hk
      rw [getLsbD_encode_aLoad, BitVec.ofNat_toNat, BitVec.setWidth_eq, BitVec.getLsbD_extractLsb', Nat.zero_add]
      by_cases hk15 : k = 15
      · rw [hk15, h15, if_neg Bool.false_ne_true, h15, Bool.and_false]
      · simp [show k < 15 by omega]
  | true =>
    cases hmk : compTable.lookup (fieldComp w) with
    | none => rw [decode_of_lookup_none h15 hmk] at h; cases h
    | some mk =>
      rw [decode_of_lookup h15 hmk] at h
      cases h
      obtain ⟨henc, -, hwf⟩ :=
        encode_of_mem_compTable _ (mem_compTable_of_lookup hmk) (fieldX w) (fieldDest w) (fieldJump w)
      exact ⟨hwf, henc.trans (encodeCompute_fields h15)⟩

/-- Settles O5, by running the decoder. -/
theorem sampleWordsDecode : Obligations.SampleWordsDecode :=
  ⟨rfl, rfl, rfl, rfl, rfl, rfl, rfl, rfl⟩

end Sys2Proof.Machine
end

section
/-! SUPPORT. The invariant (`10_state.md` section 5, `20_memory.md` section 7; log 4): each memory is in canonical form
within its size, every step, every run and every host action keeps it so. -/

namespace Sys2Proof.Machine

/-- What the invariant asks of one memory of `words` Words. -/
def Memory.CanonicalWithin (words : Nat) (m : Memory) : Prop := m.wf = true ∧ m.within words = true

theorem Memory.CanonicalWithin.nil (words : Nat) : Memory.CanonicalWithin words [] := ⟨rfl, rfl⟩

theorem Memory.CanonicalWithin.writeWord {words i : Nat} {m : Memory} (h : Memory.CanonicalWithin words m)
    (hi : i < words) (w : Word) : Memory.CanonicalWithin words (m.writeWord i w) :=
  ⟨Memory.wf_writeWord h.1 i w, Memory.within_writeWord h.2 hi w⟩

theorem State.inv_iff {s : State} : s.inv = true ↔
    Memory.CanonicalWithin 32768 s.rom ∧ Memory.CanonicalWithin 16384 s.ram ∧ Memory.CanonicalWithin 8192 s.fb := by
  simp only [State.inv, Memory.CanonicalWithin, Bool.and_eq_true]
  tauto

theorem State.inv_setPc {s : State} (h : s.inv = true) (v : Word) : (s.setPc v).inv = true := h

theorem State.inv_setRom {s : State} (h : s.inv = true) {m : Memory} (hm : Memory.CanonicalWithin 32768 m) :
    (s.setRom m).inv = true := by
  obtain ⟨-, hram, hfb⟩ := State.inv_iff.mp h
  exact State.inv_iff.mpr ⟨hm, hram, hfb⟩

theorem State.inv_setRam {s : State} (h : s.inv = true) {m : Memory} (hm : Memory.CanonicalWithin 16384 m) :
    (s.setRam m).inv = true := by
  obtain ⟨hrom, -, hfb⟩ := State.inv_iff.mp h
  exact State.inv_iff.mpr ⟨hrom, hm, hfb⟩

theorem State.inv_setFb {s : State} (h : s.inv = true) {m : Memory} (hm : Memory.CanonicalWithin 8192 m) :
    (s.setFb m).inv = true := by
  obtain ⟨hrom, hram, -⟩ := State.inv_iff.mp h
  exact State.inv_iff.mpr ⟨hrom, hram, hm⟩

/-! ### Steps and runs -/

theorem exec_keeps_inv {i : Instr} {s t : State} (h : s.inv = true) (he : exec i s = .next t) : t.inv = true := by
  obtain ⟨imm15, -, rfl⟩ | ⟨x, dest, jump, r, -, -, hwritable, -, heff, hram, hfb⟩ := exec_next_cases he
  · exact h
  · obtain ⟨hrom0, hram0, hfb0⟩ := State.inv_iff.mp h
    rw [State.inv_iff, heff.rom, hram, hfb]
    refine ⟨hrom0, ?ram, ?fb⟩
    case ram =>
      split
      · next hm => exact hram0.writeWord (by omega) r
      · exact hram0
    case fb =>
      split
      · next hm =>
        have hle : uval s.a ≤ 0x5FFF := hwritable hm.1
        exact hfb0.writeWord (by omega) r
      · exact hfb0

/-- Settles O27, by what a completed instruction leaves of each memory. -/
theorem stepKeepsInvariant : Obligations.StepKeepsInvariant := by
  intro s t h hstep
  obtain ⟨-, i, -, he⟩ := step_next_cases hstep
  exact exec_keeps_inv h he

/-- A run's first step, then the rest. -/
theorem run_succ_of_step {s u : State} (h : step s = .next u) (n : Nat) :
    Host.Core.run core (n + 1) s = Host.Core.run core n u := by
  have hcore : core.step s = .next u := h
  simp only [Host.Core.run, hcore]

/-- The inversion of a completed run of `n + 1` steps. -/
theorem run_succ_next_cases {n : Nat} {s t : State} (h : Host.Core.run core (n + 1) s = .next t) :
    ∃ u : State, step s = .next u ∧ Host.Core.run core n u = .next t := by
  cases hstep : step s with
  | next u => exact ⟨u, rfl, run_succ_of_step hstep n ▸ h⟩
  | fault r | refused r =>
    have hcore : core.step s = _ := hstep
    simp only [Host.Core.run, hcore] at h
    cases h

/-- Settles O28, by induction on the number of steps. -/
theorem runsKeepInvariantAndStore : Obligations.RunsKeepInvariantAndStore := by
  intro n
  induction n with
  | zero => intro s t h; cases h; exact ⟨id, rfl⟩
  | succ n ih =>
    intro s t h
    obtain ⟨u, hstep, hrun⟩ := run_succ_next_cases h
    obtain ⟨hinv, hrom⟩ := ih u t hrun
    exact ⟨fun hs => hinv (stepKeepsInvariant s u hs hstep), hrom.trans (step_next_rom hstep)⟩

/-! ### Reset and the host -/

/-- Settles O35: every memory of the reset state lists nothing. -/
theorem resetMeetsInvariant : Obligations.ResetMeetsInvariant := rfl

theorem hostWriteRam_keeps_inv {s t : State} {i v : Word} (h : s.inv = true) (hw : s.hostWriteRam i v = some t) :
    t.inv = true := by
  obtain ⟨hi, hmem⟩ := memWrite_of_hostWriteRam hw
  rw [memWrite_ram hi] at hmem
  cases hmem
  exact State.inv_setRam h ((State.inv_iff.mp h).2.1.writeWord (by omega) v)

theorem loadProgram_keeps_inv {s t : State} {romFill : Word} {ws : List Word} (h : s.inv = true)
    (hl : s.loadProgram romFill ws = some t) : t.inv = true := by
  obtain ⟨-, ht, hwf, hwithin, -⟩ := loadProgram_cases hl
  rw [ht]
  exact State.inv_setRom h ⟨hwf, hwithin⟩

theorem withFetchWord_keeps_inv {s : State} (h : s.inv = true) (nbits w : Nat) :
    (s.withFetchWord nbits w).inv = true := by
  unfold State.withFetchWord
  refine State.inv_setRom (State.inv_setPc h _) ((State.inv_iff.mp h).1.writeWord ?_ _)
  split
  · next hpc => simp only [Config.istoreLast] at hpc; omega
  · decide

/-- Settles O36, action by action. -/
theorem hostActionsKeepInvariant : Obligations.HostActionsKeepInvariant := fun _ h =>
  ⟨State.inv_setPc h 0, State.inv_setRam h (.nil _), fun _ => h, fun _ _ _ => hostWriteRam_keeps_inv h,
    fun _ _ _ => loadProgram_keeps_inv h, withFetchWord_keeps_inv h⟩

end Sys2Proof.Machine
end

section
/-! SUPPORT. The compute operations (`41_compute_alu.md`): the three ends of a compute instruction, each operation's
rule from its row of the opcode map (R82 to R99), and 16-bit arithmetic read signed or unsigned (R100). -/

namespace Sys2Proof.Machine

/-! ### The three ends of a compute instruction -/

section Compute

variable {i : Instr} {x : XSource} {dest : Dest} {jump : Jump} (hf : computeFields i = some (x, dest, jump))
include hf

theorem exec_readFault {s : State} (hr : ¬ Readable x s) :
    exec i s = .fault (.badAddress .dataRead s.a (instrWord s)) := by
  obtain ⟨op, -, he⟩ := exec_compute hf
  rw [he, compute_readFault hr]

theorem exec_writeFault {s : State} (hr : Readable x s) (hw : ¬ Writable dest s) :
    exec i s = .fault (.badAddress .dataWrite s.a (instrWord s)) := by
  obtain ⟨op, -, he⟩ := exec_compute hf
  rw [he, compute_writeFault hr hw]

theorem exec_completes {s : State} (hr : Readable x s) (hw : Writable dest s) :
    ∃ t, exec i s = .next t ∧ ComputeEffect s t x dest jump (resultOf i s.d s.a (operandX x s)) := by
  obtain ⟨op, hop, he⟩ := exec_compute hf
  obtain ⟨t, ht, heff, -⟩ := compute_next (op := op) (jump := jump) hr hw
  exact ⟨t, by rw [he, ht], hop _ _ _ ▸ heff⟩

/-- What a completed compute instruction leaves, its two memories included. -/
theorem exec_next_effect {s t : State} (he : exec i s = .next t) :
    Readable x s ∧ Writable dest s ∧ ComputeEffect s t x dest jump (resultOf i s.d s.a (operandX x s)) ∧
      t.ram = (if dest.m = true ∧ uval s.a ≤ 0x3FFF
        then s.ram.writeWord (uval s.a) (resultOf i s.d s.a (operandX x s)) else s.ram) ∧
      t.fb = (if dest.m = true ∧ 0x4000 ≤ uval s.a
        then s.fb.writeWord (uval s.a - 0x4000) (resultOf i s.d s.a (operandX x s)) else s.fb) := by
  obtain ⟨imm15, rfl, -⟩ | ⟨x', dest', jump', r, hf', hr, hw, rfl, heff, hram, hfb⟩ := exec_next_cases he
  · cases hf
  · cases hf.symm.trans hf'
    exact ⟨hr, hw, heff, hram, hfb⟩

end Compute

/-! ### The rule of each operation -/

/-- A row of the opcode map gives its instruction the whole rule, once the row's result is known. -/
theorem operationRule_of_lookup {comp : BitVec 6} {mk : XSource → Dest → Jump → Instr}
    {result : Word → Word → Word → Word} (h : compTable.lookup comp = some mk)
    (hresult : ∀ x dest jump d a v, resultOf (mk x dest jump) d a v = result d a v) :
    OperationRule (compPattern comp) mk result := by
  have hf : ∀ x dest jump, computeFields (mk x dest jump) = some (x, dest, jump) :=
    computeFields_of_mem_compTable _ (mem_compTable_of_lookup h)
  constructor
  case encoding =>
    intro w hw
    obtain ⟨h15, hcomp⟩ := and_mask_eq_compPattern_iff.mp hw
    exact ⟨fieldJump w, codeJump_fieldJump w, decode_of_lookup h15 (hcomp ▸ h)⟩
  case readFault => exact fun x dest jump s => exec_readFault (hf x dest jump)
  case writeFault => exact fun x dest jump s => exec_writeFault (hf x dest jump)
  case completes =>
    intro x dest jump s hr hw
    rw [← hresult x dest jump]
    exact exec_completes (hf x dest jump) hr hw

/-- Settles O9, by the rows of the three constants. -/
theorem constantOperations : Obligations.ConstantOperations :=
  ⟨operationRule_of_lookup (comp := 0b101010#6) rfl fun _ _ _ _ _ _ => rfl,
    operationRule_of_lookup (comp := 0b111111#6) rfl fun _ _ _ _ _ _ => rfl,
    operationRule_of_lookup (comp := 0b111010#6) rfl fun _ _ _ _ _ _ => rfl⟩

/-- Settles O10, by the rows of the moves and complements. -/
theorem moveAndComplementOperations : Obligations.MoveAndComplementOperations :=
  ⟨operationRule_of_lookup (comp := 0b001100#6) rfl fun _ _ _ _ _ _ => rfl,
    operationRule_of_lookup (comp := 0b110000#6) rfl fun _ _ _ _ _ _ => rfl,
    operationRule_of_lookup (comp := 0b001101#6) rfl fun _ _ _ _ _ _ => rfl,
    operationRule_of_lookup (comp := 0b110001#6) rfl fun _ _ _ _ _ _ => rfl⟩

/-- Settles O11, by the rows of the negations: the exact result, reduced, is the 16-bit one (D1). -/
theorem negationOperations : Obligations.NegationOperations :=
  ⟨operationRule_of_lookup (comp := 0b001111#6) rfl fun _ _ _ d a v => (aluNegD_eq d a v).symm,
    operationRule_of_lookup (comp := 0b110011#6) rfl fun _ _ _ d a v => (aluNegA_eq d a v).symm⟩

/-- Settles O12, by the rows of the increments and decrements: the exact result, reduced, is the 16-bit one (D1). -/
theorem incrementAndDecrementOperations : Obligations.IncrementAndDecrementOperations :=
  ⟨operationRule_of_lookup (comp := 0b011111#6) rfl fun _ _ _ d a v => (aluIncD_eq d a v).symm,
    operationRule_of_lookup (comp := 0b110111#6) rfl fun _ _ _ d a v => (aluIncX_eq d a v).symm,
    operationRule_of_lookup (comp := 0b001110#6) rfl fun _ _ _ d a v => (aluDecD_eq d a v).symm,
    operationRule_of_lookup (comp := 0b110010#6) rfl fun _ _ _ d a v => (aluDecX_eq d a v).symm⟩

/-- Settles O13, by the rows of the sum and the differences: the exact result, reduced, is the 16-bit one (D1). -/
theorem addAndSubtractOperations : Obligations.AddAndSubtractOperations :=
  ⟨operationRule_of_lookup (comp := 0b000010#6) rfl fun _ _ _ d a v => (aluAdd_eq d a v).symm,
    operationRule_of_lookup (comp := 0b010011#6) rfl fun _ _ _ d a v => (aluSubDX_eq d a v).symm,
    operationRule_of_lookup (comp := 0b000111#6) rfl fun _ _ _ d a v => (aluSubXD_eq d a v).symm⟩

/-- Settles O14, by the rows of AND and OR, which act bit by bit. -/
theorem bitwiseOperations : Obligations.BitwiseOperations :=
  ⟨operationRule_of_lookup (comp := 0b000000#6) rfl fun _ _ _ _ _ _ => rfl,
    operationRule_of_lookup (comp := 0b010101#6) rfl fun _ _ _ _ _ _ => rfl,
    fun _ _ _ _ => ⟨BitVec.getLsbD_and, BitVec.getLsbD_or⟩⟩

/-! ### Signed or unsigned -/

theorem wrap16_uval (w : Word) : wrap16 (uval w) = w := by simp [wrap16, uval]

theorem wrap16_add (m n : Int) : wrap16 (m + n) = wrap16 m + wrap16 n := BitVec.ofInt_add m n

theorem wrap16_neg (n : Int) : wrap16 (-n) = -wrap16 n := BitVec.ofInt_neg

theorem wrap16_sub (m n : Int) : wrap16 (m - n) = wrap16 m - wrap16 n := by
  rw [Int.sub_eq_add_neg, wrap16_add, wrap16_neg, BitVec.sub_eq_add_neg]

/-- The signed reading of a reduced integer, and what the reduction took away (R10, R100). -/
theorem sval_wrap16 (n : Int) :
    (65536 : Int) ∣ (sval (wrap16 n) - n) ∧ -32768 ≤ sval (wrap16 n) ∧ sval (wrap16 n) ≤ 32767 := by
  rw [sval, wrap16, BitVec.toInt_ofInt, Int.bmod_def]
  omega

/-- Settles O15: reduction to 16 bits keeps sums, differences and negations, so either reading gives the same Word. -/
theorem arithmeticWrapsAndIgnoresSign : Obligations.ArithmeticWrapsAndIgnoresSign := by
  refine ⟨fun d a x => ?readings, sval_wrap16, fun a x => ⟨rfl, rfl, rfl⟩⟩
  case readings =>
    have hone : wrap16 1 = 1 := rfl
    rw [aluAdd_eq, aluSubDX_eq, aluSubXD_eq, aluIncD_eq, aluIncX_eq, aluDecD_eq, aluDecX_eq, aluNegD_eq, aluNegA_eq]
    simp only [wrap16_add, wrap16_sub, wrap16_neg, wrap16_uval, hone, and_self, and_true]
    rw [BitVec.ofNat_add]
    simp

end Sys2Proof.Machine
end

section
/-! SUPPORT. The step, write-back and the jump (`40_step_and_address_instruction.md`, `42_writeback_and_jump.md`): the
address instruction (R70, R73), the eight jump codes (R109 to R117), the taken jump (R118), the `dest` flags (R108) and
who writes A and D (R14, R15). -/

namespace Sys2Proof.Machine

open Sys2Proof.Claims (Fetches JumpRule DestRow)

/-- Settles O6: the fetch gives the Word, and the decoder the instruction. -/
theorem stepRunsDecoded : Obligations.StepRunsDecoded := fun _ _ _ hfetch hdecode =>
  step_of_decode_ok (hfetch.2 ▸ ifetch_of_le hfetch.1) hdecode

theorem step_address {s : State} {w : Word} (hfetch : Fetches s w) (h15 : w.getLsbD 15 = false) :
    step s = .next { s with a := w &&& 0x7FFF, pc := s.pc + 1 } := by
  rw [stepRunsDecoded s w _ hfetch ((decodeProcedureTotal w).1 h15), exec_aLoad, BitVec.ofNat_toNat, BitVec.setWidth_eq]
  rfl

/-- Settles O7: A.LOAD's next state, and from PC = 0x7FFF a PC that no fetch reaches. -/
theorem addressInstruction : Obligations.AddressInstruction := by
  refine ⟨exec_aLoad, fun s w hfetch h15 => ⟨step_address hfetch h15, fun hpc => ?last⟩⟩
  case last =>
    have hnext : s.pc + 1 = 0x8000 := by rw [hpc]; rfl
    rw [hnext]
    exact step_of_pc_gt (show 0x7FFF < uval 0x8000 by decide)

/-! ### The jump codes -/

/-- A compute instruction that reads and writes nothing but D, A and PC only moves PC. -/
theorem exec_no_dest {i : Instr} {jump : Jump} (hf : computeFields i = some (.regA, ⟨false, false, false⟩, jump))
    (s : State) :
    exec i s = .next { s with pc := if jumpTaken jump (resultOf i s.d s.a s.a) then s.a else s.pc + 1 } := by
  obtain ⟨op, hop, he⟩ := exec_compute hf
  have hphases : compute op .regA ⟨false, false, false⟩ jump s = .next (updatePc jump (op s.d s.a s.a) s) := rfl
  rw [he, hphases, hop, updatePc, jumpCond_eq_jumpTaken, pcPlusOne_eq]
  split <;> rfl

/-- The spec's worked example of a jump code (R110 to R117) is the Word of C.D with `dest` = 000. -/
theorem decode_worked_example (jump : Jump) :
    decode (0xE300 ||| (codeJump jump).setWidth 16) = .ok (.cD .regA ⟨false, false, false⟩ jump) := by
  cases jump <;> rfl

/-- A jump code has the whole rule, once its row of the jump table is the condition. -/
theorem jumpRule_of_jumpTaken {jump : Jump} {cond : Word → Prop} (hcond : ∀ r, jumpTaken jump r = true ↔ cond r) :
    JumpRule (codeJump jump) jump cond := by
  constructor
  case encoding =>
    intro w i h15 hdecode
    obtain ⟨h0, -⟩ | ⟨-, hf⟩ := decode_ok_cases hdecode
    · exact absurd (h15.symm.trans h0) Bool.noConfusion
    · rw [← fieldJump_eq_iff, hf]
      simp
  case condition => exact fun r => by rw [jumpCond_eq_jumpTaken, hcond]
  case readFault => exact fun i x dest s hf => exec_readFault hf
  case target =>
    intro i x dest s t hf he
    obtain ⟨-, -, heff, -⟩ := exec_next_effect hf he
    rw [← hcond]
    exact ⟨fun h => heff.pc.trans (if_pos h), fun h => heff.pc.trans (if_neg h), heff⟩
  case worked =>
    intro s hfetch hpc ha
    have hnext : s.pc + 1 = 0x0011 := by rw [hpc]; rfl
    have hresult : resultOf (.cD .regA ⟨false, false, false⟩ jump) s.d s.a s.a = s.d := rfl
    rw [stepRunsDecoded s _ _ hfetch (decode_worked_example jump), exec_no_dest rfl, hresult, ha, hnext, ← hcond]
    exact ⟨fun h => by rw [if_pos h], fun h => by rw [if_neg h]⟩

/-- Settles O16: each code's row of the jump table is its condition, with bit 15 as the sign. -/
theorem jumpCodes : Obligations.JumpCodes := by
  have hsign (r : Word) : r.getLsbD 15 = decide (sval r < 0) := by
    rw [sval, ← BitVec.msb_eq_toInt, BitVec.msb_eq_getLsbD_last]
  refine ⟨jumpRule_of_jumpTaken (jump := .noj) ?noj, jumpRule_of_jumpTaken (jump := .jgt) ?jgt,
    jumpRule_of_jumpTaken (jump := .jeq) ?jeq, jumpRule_of_jumpTaken (jump := .jge) ?jge,
    jumpRule_of_jumpTaken (jump := .jlt) ?jlt, jumpRule_of_jumpTaken (jump := .jne) ?jne,
    jumpRule_of_jumpTaken (jump := .jle) ?jle, jumpRule_of_jumpTaken (jump := .jmp) ?jmp⟩
  case noj => exact fun _ => iff_of_false Bool.false_ne_true id
  case jgt | jeq | jne | jle => exact fun _ => decide_eq_true_iff
  case jge =>
    intro r
    rw [hsign, decide_eq_false_iff_not, Int.not_lt, and_self]
    exact decide_eq_true_iff
  case jlt =>
    intro r
    rw [hsign, decide_eq_true_iff, and_self]
    exact decide_eq_true_iff
  case jmp => exact fun _ => iff_of_true rfl trivial

/-- Settles O17: the next PC is the A of after write-back, which the effect of the instruction names. -/
theorem takenJumpGoesToNewA : Obligations.TakenJumpGoesToNewA := by
  intro i x dest jump s t hf he htaken
  obtain ⟨-, -, heff, hram, hfb⟩ := exec_next_effect hf he
  have hpc : t.pc = t.a := heff.pc.trans (if_pos htaken)
  refine ⟨hpc.trans heff.regA, hpc, fun hd => ?keepsD, fun hm => ⟨?keepsRam, ?keepsFb⟩, heff, step_of_pc_gt⟩
  case keepsD => rw [heff.regD, if_neg (ne_true_of_eq_false hd)]
  case keepsRam => rw [hram, if_neg fun h => ne_true_of_eq_false hm h.1]
  case keepsFb => rw [hfb, if_neg fun h => ne_true_of_eq_false hm h.1]

/-! ### Write-back -/

/-- The row of R108's table for each `dest` value: C.ADD on A = 3 and D = 2 gives 5 wherever a flag is set. -/
theorem destRow_cAdd (dest : Dest) :
    DestRow (encode (.cAdd .regA dest .noj)) (if dest.a then 0x0005 else 0x0003) (if dest.d then 0x0005 else 0x0002)
      dest.m := by
  intro s hfetch ha hd
  have hua : uval s.a = 3 := by rw [ha]; rfl
  obtain ⟨t, ht, heff⟩ := exec_completes (i := .cAdd .regA dest .noj) (s := s) rfl (fun h => by cases h)
    (fun _ => by omega)
  have hresult : resultOf (.cAdd .regA dest .noj) s.d s.a (operandX .regA s) = 0x0005 := by
    simp only [resultOf, operandX, ha, hd]
    rfl
  rw [hresult] at heff
  obtain ⟨-, -, -, hram, -⟩ := exec_next_effect rfl ht
  rw [hresult, hua] at hram
  refine ⟨t, (stepRunsDecoded s _ _ hfetch (decodeOfEncode _ rfl)).trans ht, ha ▸ heff.regA, hd ▸ heff.regD, heff.pc,
    ?stored, ?other⟩
  case stored =>
    rw [hram]
    cases dest.m <;> simp
  case other =>
    rw [hram]
    cases dest.m <;> simp [Memory.readWord_writeWord_other]

/-- Settles O18, by the eight values of the three flags. -/
theorem destFlagsTable : Obligations.DestFlagsTable :=
  ⟨destRow_cAdd ⟨false, false, false⟩, destRow_cAdd ⟨false, false, true⟩, destRow_cAdd ⟨false, true, false⟩,
    destRow_cAdd ⟨false, true, true⟩, destRow_cAdd ⟨true, false, false⟩, destRow_cAdd ⟨true, false, true⟩,
    destRow_cAdd ⟨true, true, false⟩, destRow_cAdd ⟨true, true, true⟩⟩

/-- Settles O19: A.LOAD keeps D, and a compute instruction keeps each register whose flag is clear. -/
theorem whoWritesAAndD : Obligations.WhoWritesAAndD := by
  intro i s t he
  obtain ⟨imm15, rfl, rfl⟩ | ⟨x, dest, jump, r, hf, -, -, -, heff, -⟩ := exec_next_cases he
  · exact ⟨fun hd => absurd rfl hd, fun _ => .inl ⟨imm15, rfl⟩⟩
  · refine ⟨fun hd => ⟨x, dest, jump, hf, ?_⟩, fun ha => .inr ⟨x, dest, jump, hf, ?_⟩⟩
    · by_contra hflag
      exact hd (heff.regD.trans (if_neg hflag))
    · by_contra hflag
      exact ha (heff.regA.trans (if_neg hflag))

end Sys2Proof.Machine
end

section
/-! SUPPORT. Memory (`20_memory.md`): the dispatcher region by region (R33, R34), a read after a write (R36, R37), the
keyboard draw (R38), the one Word a step can write (R43), the pixels' addresses (R37) and the host's writes (R144). -/

namespace Sys2Proof.Machine

theorem dataWord_kbd {s : State} {addr : Word} (h : uval addr = 0x6000) : dataWord s addr = kbdWord s := if_pos h

theorem dataWord_fb {s : State} {addr : Word} (h1 : 0x4000 ≤ uval addr) (h2 : uval addr ≤ 0x5FFF) :
    dataWord s addr = s.fb.readWord (uval addr - 0x4000) := by
  rw [dataWord, if_neg (by omega), if_pos h1]

theorem dataWord_ram {s : State} {addr : Word} (h : uval addr ≤ 0x3FFF) :
    dataWord s addr = s.ram.readWord (uval addr) := by
  rw [dataWord, if_neg (by omega), if_neg (by omega)]

/-- A read below the keyboard's address changes nothing (R33). -/
theorem memRead_of_lt {s : State} {addr : Word} (h : uval addr ≤ 0x5FFF) :
    memRead addr s = .ok (dataWord s addr, s) := by
  rw [memRead_of_le (by omega), if_neg (by omega)]

/-- Settles O21, by the Word each region holds. -/
theorem dispatcherRead : Obligations.DispatcherRead := by
  refine fun s addr => ⟨fun h => ?kbd, fun h1 h2 => ?fb, fun h => ?ram, memRead_of_gt⟩
  case kbd =>
    rw [memRead_of_le (by omega), dataWord_kbd h, if_pos h]
    rfl
  case fb => rw [memRead_of_lt h2, dataWord_fb h1 h2]
  case ram => rw [memRead_of_lt (by omega), dataWord_ram h]

/-- Settles O22, by the write of one Word in each region. -/
theorem dispatcherWrite : Obligations.DispatcherWrite := fun s addr v =>
  ⟨fun h => ⟨_, memWrite_ram h, Memory.readWord_writeWord_same _ _ _,
      fun k => Memory.readByte_writeWord_frame _ _ k v⟩,
    fun h1 h2 => ⟨_, memWrite_fb h1 h2, Memory.readWord_writeWord_same _ _ _,
      fun k => Memory.readByte_writeWord_frame _ _ k v⟩,
    fun h => memWrite_of_gt (by omega)⟩

/-- What a write makes of the Word at every address of RAM and framebuffer. -/
theorem dataWord_of_memWrite_ok {s t : State} {addr v other : Word} (h : memWrite addr v s = .ok t)
    (hother : uval other ≤ 0x5FFF) : dataWord t other = if other = addr then v else dataWord s other := by
  have heq : other = addr ↔ uval other = uval addr := BitVec.toNat_inj.symm
  obtain ⟨hram, rfl⟩ | ⟨hge, hfb, rfl⟩ := memWrite_ok_cases h <;> by_cases hreg : uval other ≤ 0x3FFF
  · simp only [dataWord_ram hreg, State.setRam_ram, Memory.readWord_writeWord, heq]
  · rw [dataWord_fb (by omega) hother, dataWord_fb (by omega) hother, if_neg (by rw [heq]; omega), State.setRam_fb]
  · rw [dataWord_ram hreg, dataWord_ram hreg, if_neg (by rw [heq]; omega), State.setFb_ram]
  · have hoff : uval other - 0x4000 = uval addr - 0x4000 ↔ uval other = uval addr := by omega
    simp only [dataWord_fb (show 0x4000 ≤ uval other by omega) hother, State.setFb_fb, Memory.readWord_writeWord, heq,
      hoff]

/-- Settles O23, by the Word a write leaves at each address. -/
theorem readReturnsLatestWrite : Obligations.ReadReturnsLatestWrite := by
  intro s t addr v h
  have haddr : uval addr ≤ 0x5FFF := by
    obtain ⟨hle, -⟩ | ⟨-, hle, -⟩ := memWrite_ok_cases h <;> omega
  refine ⟨by rw [memRead_of_lt haddr, dataWord_of_memWrite_ok h haddr, if_pos rfl], fun other w hne hle hread => ?_⟩
  rw [memRead_of_lt hle] at hread
  cases hread
  rw [memRead_of_lt hle, dataWord_of_memWrite_ok h hle, if_neg hne]

/-- C.X with `a` = 1 and the D flag at 0x6000 moves the keyboard's Word to D and takes it. -/
theorem exec_keyboard_to_d {s : State} (h : uval s.a = 0x6000) :
    exec (.cX .memM ⟨false, true, false⟩ .noj) s = .next ((s.nextKbd.setD (kbdWord s)).setPc (s.pc + 1)) := by
  have hx : resolveX .memM s = .ok (kbdWord s, s.nextKbd) := by
    rw [resolveX, memRead_of_le (by omega), dataWord_kbd h, if_pos h]
  have hphases : compute aluX .memM ⟨false, true, false⟩ .noj s =
      .next ((s.nextKbd.setD (kbdWord s)).setPc (pcPlusOne s.pc)) := by
    rw [compute, hx]
    rfl
  rw [← pcPlusOne_eq]
  exact hphases

/-- Settles O24, by what the keyboard presents. -/
theorem keyboardReadDrawsNextWord : Obligations.KeyboardReadDrawsNextWord := by
  refine fun s h => ⟨fun v rest hkbd => ?presented, fun hkbd => ?free⟩
  case presented =>
    have hword : kbdWord s = v := by rw [kbdWord, hkbd]
    rw [exec_keyboard_to_d h, hword, State.nextKbd, hkbd]
    rfl
  case free =>
    have hword : kbdWord s = Config.kbdStream s.kbdReads := by rw [kbdWord, hkbd]
    rw [exec_keyboard_to_d h, hword, State.nextKbd, hkbd]
    rfl

/-- Settles O26, by the frame of the one instruction a step runs. -/
theorem stepWritesOnlyTheWordAtA : Obligations.StepWritesOnlyTheWordAtA := by
  intro s t h
  obtain ⟨-, i, -, he⟩ := step_next_cases h
  obtain ⟨imm15, -, rfl⟩ | ⟨x, dest, jump, r, -, -, -, -, heff, -⟩ := exec_next_cases he
  · exact ⟨fun _ _ => rfl, fun _ _ => rfl⟩
  · exact ⟨fun k hk => heff.ramFrame k fun hw => hk hw.2.2, fun k hk => heff.fbFrame k fun hw => hk hw.2⟩

/-- Settles O29: an address's row and column are its offset's quotient and remainder by the 32 Words of a row. -/
theorem pixelsCoverFramebuffer : Obligations.PixelsCoverFramebuffer := by
  refine ⟨fun r c hr hc => ?inside, fun addr h1 h2 => ⟨(addr - 0x4000) / 32, 16 * ((addr - 0x4000) % 32), ?covers⟩⟩
  all_goals
    simp only [pixelAddress, Config.fbBase]
    omega

@[simp] theorem Memory.readWord_nil (i : Nat) : Memory.readWord [] i = 0 := by
  rw [Memory.readWord, Memory.readByte_nil, Memory.readByte_nil]
  rfl

/-- Settles O38: clearing lists nothing, and a host write is the dispatcher's on RAM. -/
theorem hostMemoryActions : Obligations.HostMemoryActions := by
  refine fun s => ⟨⟨[], rfl, Memory.readWord_nil⟩, fun i v hi => ⟨s.ram.writeWord (uval i) v, ?write,
    Memory.readWord_writeWord_same _ _ _, fun j => Memory.readWord_writeWord_other _ _ j v⟩, fun i v hi => ?outside⟩
  case write =>
    rw [State.hostWriteRam, if_pos hi, memWrite_ram hi]
    rfl
  case outside => exact if_neg (Nat.not_le.mpr hi)

end Sys2Proof.Machine
end

section
/-! SUPPORT. Faults (`60_exceptions.md`): when a step completes and when it faults (R120), the order of the causes
(R125), the fetch fault (R121); and what a step depends on: the inputs of R75, and of a compute Word every bit but
14..13 (R53, D2). -/

namespace Sys2Proof.Machine

open Sys2Proof.Claims (Fetches)

theorem instrWord_of_fetches {s : State} {w : Word} (h : Fetches s w) : instrWord s = some w := by
  rw [instrWord, romWord_of_le h.1, h.2]

/-- The inversion of a faulting instruction: a compute instruction's data read or data write. -/
theorem exec_fault_cases {i : Instr} {s : State} {f : Fault} (h : exec i s = .fault f) :
    ∃ x dest jump, computeFields i = some (x, dest, jump) ∧
      (¬ Readable x s ∧ f = .badAddress .dataRead s.a (instrWord s) ∨
        Readable x s ∧ ¬ Writable dest s ∧ f = .badAddress .dataWrite s.a (instrWord s)) := by
  cases hf : computeFields i with
  | none =>
    obtain ⟨imm15, rfl⟩ := eq_aLoad_of_no_fields hf
    rw [exec_aLoad] at h
    cases h
  | some fields =>
    obtain ⟨x, dest, jump⟩ := fields
    refine ⟨x, dest, jump, rfl, ?_⟩
    by_cases hr : Readable x s
    · by_cases hw : Writable dest s
      · obtain ⟨t, ht, -⟩ := exec_completes hf hr hw
        cases ht.symm.trans h
      · cases (exec_writeFault hf hr hw).symm.trans h
        exact .inr ⟨hr, hw, rfl⟩
    · cases (exec_readFault hf hr).symm.trans h
      exact .inl ⟨hr, rfl⟩

/-! ### When a step completes -/

/-- Every step completes, as canStep says, or faults, as canStep denies. -/
theorem step_completes_or_faults (s : State) :
    (s.canStep = true ∧ ∃ t, step s = .next t) ∨ (s.canStep = false ∧ ∃ f, step s = .fault f) := by
  by_cases hpc : uval s.pc ≤ 0x7FFF
  · cases hd : decode (s.rom.readWord (uval s.pc)) with
    | error e => exact .inr ⟨by simp [State.canStep, hd], _, step_of_decode_error (ifetch_of_le hpc) hd⟩
    | ok i =>
      rw [step_of_decode_ok (ifetch_of_le hpc) hd]
      cases hf : computeFields i with
      | none =>
        obtain ⟨imm15, rfl⟩ := eq_aLoad_of_no_fields hf
        exact .inl ⟨by simp [State.canStep, hpc, hd, hf], _, exec_aLoad imm15 s⟩
      | some fields =>
        obtain ⟨x, dest, jump⟩ := fields
        have hcan : s.canStep = (decide (Readable x s) && decide (Writable dest s)) := by
          simp only [State.canStep, hd, hf, decide_eq_true hpc, Bool.true_and]
        by_cases hr : Readable x s
        · by_cases hw : Writable dest s
          · obtain ⟨t, ht, -⟩ := exec_completes hf hr hw
            exact .inl ⟨by rw [hcan, decide_eq_true hr, decide_eq_true hw, Bool.and_self], t, ht⟩
          · exact .inr ⟨by rw [hcan, decide_eq_false hw, Bool.and_false], _, exec_writeFault hf hr hw⟩
        · exact .inr ⟨by rw [hcan, decide_eq_false hr, Bool.false_and], _, exec_readFault hf hr⟩
  · exact .inr ⟨by rw [State.canStep, decide_eq_false hpc, Bool.false_and], _, step_of_pc_gt (Nat.not_le.mp hpc)⟩

/-- Settles O32, by the two ends of a step. -/
theorem stepCompletesUnlessACauseApplies : Obligations.StepCompletesUnlessACauseApplies := by
  intro s
  obtain ⟨hcan, t, ht⟩ | ⟨hcan, f, hf⟩ := step_completes_or_faults s
  · rw [hcan, ht]
    exact ⟨iff_of_true ⟨t, rfl⟩ rfl, nofun, nofun⟩
  · rw [hcan, hf]
    exact ⟨iff_of_false nofun nofun, fun _ => ⟨f, rfl⟩, nofun⟩

/-- Settles O31, cause by cause: a step gets to the instruction's accesses only past the fetch and the decoder. -/
theorem faultPriority : Obligations.FaultPriority := by
  refine fun s => ⟨step_of_pc_gt, fun w e hfetch => step_of_decode_error (hfetch.2 ▸ ifetch_of_le hfetch.1),
    fun w i x dest jump hfetch hd hf hr => ?dataRead, fun w i x dest jump hfetch hd hf hr hw => ?dataWrite⟩
  case dataRead => rw [stepRunsDecoded s w i hfetch hd, exec_readFault hf hr, instrWord_of_fetches hfetch]
  case dataWrite => rw [stepRunsDecoded s w i hfetch hd, exec_writeFault hf hr hw, instrWord_of_fetches hfetch]

/-! ### The fetch fault -/

/-- Only the fetch raises BadAddress(fetch). -/
theorem pc_gt_of_fetch_fault {s : State} {addr : Word} {w : Option Word}
    (h : step s = .fault (.badAddress .fetch addr w)) : 0x7FFF < uval s.pc := by
  by_contra hpc
  have hfetch := ifetch_of_le (s := s) (Nat.not_lt.mp hpc)
  cases hd : decode (s.rom.readWord (uval s.pc)) with
  | error e => cases (step_of_decode_error hfetch hd).symm.trans h
  | ok i =>
    rw [step_of_decode_ok hfetch hd] at h
    obtain ⟨x, dest, jump, -, ⟨-, hf⟩ | ⟨-, -, hf⟩⟩ := exec_fault_cases h <;> cases hf

/-- The one PC in the Instruction Store whose successor is not. -/
theorem pc_eq_last_of_succ_gt {pc : Word} (h : uval pc ≤ 0x7FFF) (hgt : 0x7FFF < uval (pc + 1)) : pc = 0x7FFF := by
  simp only [uval] at h hgt
  bv_omega

/-- The two ways a step moves PC out of the Instruction Store (R121). -/
theorem pc_leaves_store_cases {s t : State} (h : step s = .next t) (hgt : 0x7FFF < uval t.pc) :
    (s.pc = 0x7FFF ∧ t.pc = 0x8000) ∨
    (t.pc = t.a ∧ t.a.getLsbD 15 = true ∧ ∃ i x dest jump, decode (s.rom.readWord (uval s.pc)) = .ok i ∧
      computeFields i = some (x, dest, jump) ∧ jumpTaken jump (resultOf i s.d s.a (operandX x s)) = true) := by
  obtain ⟨hpc, i, hd, he⟩ := step_next_cases h
  have hnext (heq : t.pc = s.pc + 1) : s.pc = 0x7FFF ∧ t.pc = 0x8000 := by
    have hlast := pc_eq_last_of_succ_gt hpc (heq ▸ hgt)
    exact ⟨hlast, by rw [heq, hlast]; rfl⟩
  obtain ⟨imm15, -, rfl⟩ | ⟨x, dest, jump, r, hf, -, -, rfl, heff, -⟩ := exec_next_cases he
  · exact .inl (hnext rfl)
  · by_cases htaken : jumpTaken jump (resultOf i s.d s.a (operandX x s)) = true
    · have hta : t.pc = t.a := heff.pc.trans (if_pos htaken)
      rw [hta] at hgt
      simp only [uval] at hgt
      have hbit : t.a.msb = true := BitVec.msb_eq_true_iff_two_mul_ge.mpr (by omega)
      exact .inr ⟨hta, BitVec.msb_eq_getLsbD_last t.a ▸ hbit, i, x, dest, jump, hd, hf, htaken⟩
    · exact .inl (hnext (heff.pc.trans (if_neg htaken)))

theorem hostWriteRam_pc {s t : State} {i v : Word} (h : s.hostWriteRam i v = some t) : t.pc = s.pc := by
  obtain ⟨hi, hmem⟩ := memWrite_of_hostWriteRam h
  rw [memWrite_ram hi] at hmem
  cases hmem
  rfl

theorem loadProgram_pc {s t : State} {romFill : Word} {ws : List Word} (h : s.loadProgram romFill ws = some t) :
    t.pc = s.pc := by
  obtain ⟨-, ht, -⟩ := loadProgram_cases h
  rw [ht, State.setRom_pc]

/-- Settles O30, by the fetch fault both ways, the two ways out of the store, and what the host leaves of PC. -/
theorem fetchFaultAndItsTwoCauses : Obligations.FetchFaultAndItsTwoCauses := by
  refine ⟨fun _ => step_of_pc_gt, fun s addr w h => ?record, fun _ _ => pc_leaves_store_cases, fun _ => rfl,
    fun _ _ _ _ _ _ _ => rfl,
    fun _ _ => ⟨rfl, fun _ => rfl, fun _ _ => hostWriteRam_pc, fun _ _ => loadProgram_pc⟩⟩
  case record =>
    have hpc := pc_gt_of_fetch_fault h
    cases (step_of_pc_gt hpc).symm.trans h
    exact ⟨hpc, rfl, rfl⟩

/-! ### What a step depends on -/

/-- Two states agree on everything R75 lets a step's registers depend on. -/
structure SameInputs (s1 s2 : State) : Prop where
  a : s1.a = s2.a
  d : s1.d = s2.d
  pc : s1.pc = s2.pc
  fetched : romWord s1 s1.pc = romWord s2 s2.pc
  read : ∀ w i dest jump, romWord s1 s1.pc = some w → decode w = .ok i → computeFields i = some (.memM, dest, jump) →
    dataWord s1 s1.a = dataWord s2 s2.a

namespace SameInputs

variable {s1 s2 : State} (h : SameInputs s1 s2)
include h

theorem symm : SameInputs s2 s1 :=
  ⟨h.a.symm, h.d.symm, h.pc.symm, h.fetched.symm,
    fun w i dest jump hw hd hf => (h.read w i dest jump (h.fetched.trans hw) hd hf).symm⟩

theorem fetchDecode_eq : fetchDecode s1 = fetchDecode s2 := by
  rw [fetchDecode, fetchDecode, ifetch, ifetch, h.fetched, h.pc]

theorem readable_iff (x : XSource) : Readable x s1 ↔ Readable x s2 := by rw [Readable, Readable, h.a]

theorem writable_iff (dest : Dest) : Writable dest s1 ↔ Writable dest s2 := by rw [Writable, Writable, h.a]

theorem operandX_eq {w : Word} {i : Instr} {x : XSource} {dest : Dest} {jump : Jump} (hw : romWord s1 s1.pc = some w)
    (hd : decode w = .ok i) (hf : computeFields i = some (x, dest, jump)) : operandX x s1 = operandX x s2 := by
  cases x with
  | regA => exact h.a
  | memM => exact h.read w i dest jump hw hd hf

theorem step_fault {f : Fault} (hs : step s1 = .fault f) : step s2 = .fault f := by
  rw [step, h.fetchDecode_eq] at hs
  rw [step]
  cases hfd : fetchDecode s2 with
  | error g => rw [hfd] at hs; exact hs
  | ok i =>
    rw [hfd] at hs
    have hinstr : instrWord s1 = instrWord s2 := h.fetched
    obtain ⟨x, dest, jump, hf, ⟨hr, rfl⟩ | ⟨hr, hw, rfl⟩⟩ := exec_fault_cases hs
    · rw [h.a, hinstr]
      exact exec_readFault hf (h.readable_iff x |>.not.mp hr)
    · rw [h.a, hinstr]
      exact exec_writeFault hf (h.readable_iff x |>.mp hr) (h.writable_iff dest |>.not.mp hw)

theorem step_next {t1 : State} (hs : step s1 = .next t1) :
    ∃ t2, step s2 = .next t2 ∧ t1.a = t2.a ∧ t1.d = t2.d ∧ t1.pc = t2.pc := by
  obtain ⟨hpc, i, hd, he⟩ := step_next_cases hs
  have hword := romWord_of_le (s := s1) hpc
  have hstep : step s2 = exec i s2 := by
    refine step_of_decode_ok ?_ hd
    rw [ifetch, ← h.fetched, hword]
  rw [hstep]
  obtain ⟨imm15, rfl, rfl⟩ | ⟨x, dest, jump, r, hf, hr, hw, rfl, heff, -⟩ := exec_next_cases he
  · refine ⟨_, exec_aLoad imm15 s2, rfl, h.d, ?_⟩
    rw [State.setPc_pc, State.setPc_pc, h.pc]
  · obtain ⟨t2, ht2, heff2⟩ := exec_completes hf (h.readable_iff x |>.mp hr) (h.writable_iff dest |>.mp hw)
    rw [← h.operandX_eq hword hd hf, ← h.a, ← h.d] at heff2
    have ha : t1.a = t2.a := by rw [heff.regA, heff2.regA, h.a]
    exact ⟨t2, ht2, ha, by rw [heff.regD, heff2.regD, h.d], by rw [heff.pc, heff2.pc, ha, h.pc]⟩

end SameInputs

/-- Settles O8, by the two ends of a step; agreement is symmetric. -/
theorem stepDependsOnlyOnItsInputs : Obligations.StepDependsOnlyOnItsInputs := by
  intro s1 s2 ha hd hpc hfetched hread
  have h : SameInputs s1 s2 := ⟨ha, hd, hpc, hfetched, hread⟩
  exact ⟨fun f => ⟨h.step_fault, h.symm.step_fault⟩, fun t1 => h.step_next⟩

/-- Every bit but 14..13 is kept by a change of those two. -/
theorem getLsbD_xor_of_and_eq_zero {w m : Word} (hm : m &&& 0x9FFF = 0) {k : Nat} (hk : k < 13 ∨ k = 15) :
    (w ^^^ m).getLsbD k = w.getLsbD k := by
  have hmask : ∀ k < 16, (k < 13 ∨ k = 15) → (0x9FFF : Word).getLsbD k = true := by decide
  have hbit : (m &&& 0x9FFF).getLsbD k = false := hm ▸ BitVec.getLsbD_zero
  rw [BitVec.getLsbD_and, hmask k (by omega) hk, Bool.and_true] at hbit
  rw [BitVec.getLsbD_xor, hbit, Bool.xor_false]

/-- Bits 14..13 are no field (D2). -/
theorem fields_xor_of_and_eq_zero {w m : Word} (hm : m &&& 0x9FFF = 0) :
    fieldComp (w ^^^ m) = fieldComp w ∧ fieldX (w ^^^ m) = fieldX w ∧ fieldDest (w ^^^ m) = fieldDest w ∧
      fieldJump (w ^^^ m) = fieldJump w := by
  have hbit {k : Nat} (hk : k < 13 ∨ k = 15) := getLsbD_xor_of_and_eq_zero (w := w) hm hk
  refine ⟨?comp, ?x, ?dest, ?jump⟩
  case comp =>
    apply BitVec.eq_of_getLsbD_eq
    intro k hk
    rw [getLsbD_fieldComp hk, getLsbD_fieldComp hk, hbit (by omega)]
  case x => rw [fieldX, fieldX, hbit (by omega)]
  case dest => rw [fieldDest, fieldDest, hbit (by omega), hbit (by omega), hbit (by omega)]
  case jump =>
    have hlow : (w ^^^ m).extractLsb' 0 3 = w.extractLsb' 0 3 := by
      apply BitVec.eq_of_getLsbD_eq
      intro k hk
      rw [BitVec.getLsbD_extractLsb', BitVec.getLsbD_extractLsb', hbit (by omega)]
    rw [fieldJump, fieldJump, hlow]

theorem decode_xor_ok_iff {w m : Word} (h15 : w.getLsbD 15 = true) (hm : m &&& 0x9FFF = 0) (i : Instr) :
    decode w = .ok i ↔ decode (w ^^^ m) = .ok i := by
  obtain ⟨hcomp, hx, hdest, hjump⟩ := fields_xor_of_and_eq_zero (w := w) hm
  have h15' : (w ^^^ m).getLsbD 15 = true := (getLsbD_xor_of_and_eq_zero hm (.inr rfl)).trans h15
  cases hmk : compTable.lookup (fieldComp w) with
  | none =>
    rw [decode_of_lookup_none h15 hmk, decode_of_lookup_none h15' (hcomp ▸ hmk)]
    exact iff_of_false nofun nofun
  | some mk => rw [decode_of_lookup h15 hmk, decode_of_lookup h15' (hcomp ▸ hmk), hx, hdest, hjump]

/-- A completed instruction reads nothing of the Instruction Store. -/
theorem exec_next_setRom {i : Instr} {s t : State} (he : exec i s = .next t) (rom : Memory) :
    exec i (s.setRom rom) = .next (t.setRom rom) := by
  obtain ⟨imm15, rfl, rfl⟩ | ⟨x, dest, jump, r, hf, hr, hw, rfl, heff, hram, hfb⟩ := exec_next_cases he
  · exact exec_aLoad imm15 (s.setRom rom)
  · obtain ⟨u, hu, -⟩ := exec_completes (s := s.setRom rom) hf hr hw
    obtain ⟨-, -, hueff, huram, hufb⟩ := exec_next_effect hf hu
    rw [hu, heff.eq_setRom hueff (huram.trans hram.symm) (hufb.trans hfb.symm)]

/-- Placing a Word at a fetch address that exists only writes it there. -/
theorem withFetchWord_of_le {s : State} (h : uval s.pc ≤ 0x7FFF) (w : Word) :
    s.withFetchWord 16 w.toNat = s.setRom (s.rom.writeWord (uval s.pc) w) := by
  have hpc : (if uval s.pc ≤ Config.istoreLast then s.pc else 0) = s.pc := if_pos h
  have hw : firstWord 16 w.toNat = w := by
    rw [firstWord, Nat.mod_eq_of_lt w.isLt, BitVec.ofNat_toNat, BitVec.setWidth_eq]
  rw [State.withFetchWord, hpc, hw]
  rfl

/-- Settles O4: bits 14..13 are no field, and the instruction of a completed step does not see the store it is in. -/
theorem bits14And13Ignored : Obligations.Bits14And13Ignored := by
  intro w m h15 hm
  refine ⟨decode_xor_ok_iff h15 hm, fun s t hfetch hstep => ?_⟩
  obtain ⟨hpc, i, hd, he⟩ := step_next_cases hstep
  rw [hfetch.2] at hd
  have hfetch' : Fetches (s.setRom (s.rom.writeWord (uval s.pc) (w ^^^ m))) (w ^^^ m) :=
    ⟨hpc, Memory.readWord_writeWord_same s.rom (uval s.pc) (w ^^^ m)⟩
  rw [withFetchWord_of_le hpc, stepRunsDecoded _ _ i hfetch' ((decode_xor_ok_iff h15 hm i).mp hd)]
  exact exec_next_setRom he _

end Sys2Proof.Machine
end

section
/-! SUPPORT. Reset, the program text and the end of a run (`70_reset_and_hazards.md`, `30_encoding.md` section 6): the
reset event and power-on (R26, R140), a line's 16 characters and where a loaded text goes (R60, R141), and the end by
loop (R147). -/

namespace Sys2Proof.Machine

open Sys2Proof.Claims (Fetches)

/-- Settles O33: PC is the one field written, and address 0 is in the Instruction Store. -/
theorem resetEventSetsOnlyPc : Obligations.ResetEventSetsOnlyPc := fun s =>
  ⟨rfl, ifetch_of_le (s := s.resetEvent) (addr := 0) (by decide)⟩

/-- Settles O34: the reset state's memories list nothing, and power-on keeps its arguments. -/
theorem resetAndPowerOnState : Obligations.ResetAndPowerOnState :=
  ⟨⟨rfl, rfl, rfl, fun i => ⟨Memory.readWord_nil i, Memory.readWord_nil i, Memory.readWord_nil i⟩⟩,
    fun _ _ _ _ _ _ _ => ⟨rfl, rfl, rfl, rfl, rfl, rfl⟩⟩

/-! ### The program text -/

/-- A pass over a list that succeeds is one that succeeds at every element. -/
theorem mapM_eq_some_iff {α β : Type} {f : α → Option β} {l : List α} {r : List β} :
    l.mapM f = some r ↔ l.map f = r.map some := by
  induction l generalizing r with
  | nil => cases r <;> simp
  | cons c l ih =>
    cases r with
    | nil => simp [List.mapM_cons, Option.bind_eq_some_iff]
    | cons b r => simp [List.mapM_cons, Option.bind_eq_some_iff, ← ih]

/-- A pass over a list fails exactly if it fails at some element. -/
theorem mapM_eq_none_iff {α β : Type} {f : α → Option β} {l : List α} : l.mapM f = none ↔ ∃ c ∈ l, f c = none := by
  induction l with
  | nil => simp
  | cons c l ih =>
    cases hc : f c with
    | none => simp [List.mapM_cons, hc]
    | some b => simp [List.mapM_cons, hc, ← ih, Option.eq_none_iff_forall_ne_some (o := l.mapM f)]

/-- The character of a bit (R60). -/
def bitChar (b : Bool) : Char := if b then '1' else '0'

theorem parseBit_eq_some_iff {c : Char} {b : Bool} : parseBit c = some b ↔ c = bitChar b := by
  unfold parseBit
  cases b <;> grind [bitChar]

/-- The Word of a list of bits: the last bit is bit 0, and what was there before moves up. -/
theorem getLsbD_bitsToWord {k : Nat} (hk : k < 16) : ∀ (bits : List Bool) (w : Word), (bitsToWord bits w).getLsbD k =
    if k < bits.length then bits.getD (bits.length - 1 - k) false else w.getLsbD (k - bits.length) := by
  intro bits
  induction bits with
  | nil => intro w; rfl
  | cons b bits ih =>
    intro w
    rw [bitsToWord, ih, List.length_cons]
    obtain hlt | rfl | hgt := Nat.lt_trichotomy k bits.length
    · rw [if_pos hlt, if_pos (by omega), show bits.length + 1 - 1 - k = bits.length - 1 - k + 1 by omega,
        List.getD_cons_succ]
    · simp
    · rw [if_neg (by omega), if_neg (by omega), show k - bits.length = k - (bits.length + 1) + 1 by omega]
      have hlow : ((BitVec.ofBool b).setWidth 16).getLsbD (k - (bits.length + 1) + 1) = false := by simp
      have hlt : k - (bits.length + 1) + 1 < 16 := by omega
      rw [BitVec.getLsbD_or, hlow, BitVec.getLsbD_shiftLeft]
      simp [hlt]

theorem parseLine_eq_some_iff {cs : List Char} {w : Word} : parseLine cs = some w ↔
    cs.length = 16 ∧ ∃ bits, cs.map parseBit = bits.map some ∧ bitsToWord bits 0 = w := by
  unfold parseLine
  by_cases hlen : cs.length = 16
  · rw [if_pos hlen]
    cases hbits : cs.mapM parseBit with
    | none => simp [hlen, ← mapM_eq_some_iff, hbits]
    | some bits => simp [hlen, ← mapM_eq_some_iff, hbits]
  · rw [if_neg hlen]
    exact iff_of_false nofun fun h => hlen h.1

/-- The line of a Word (R60): character `k` is bit `15 - k`. -/
theorem parseLine_eq_some_iff_chars (cs : List Char) (w : Word) : parseLine cs = some w ↔
    cs.length = 16 ∧ ∀ k, k < 16 → cs.getD k ' ' = (if w.getLsbD (15 - k) then '1' else '0') := by
  rw [parseLine_eq_some_iff]
  refine and_congr_right fun hlen => ⟨?chars, ?word⟩
  case chars =>
    rintro ⟨bits, hbits, rfl⟩ k hk
    have hblen : bits.length = 16 := by simpa [hlen] using (congrArg List.length hbits).symm
    have hchar : parseBit cs[k] = some bits[k] := by
      rw [← List.getElem_map parseBit (h := by simpa [hlen] using hk), List.getElem_of_eq hbits, List.getElem_map]
    rw [getLsbD_bitsToWord (show 15 - k < 16 by omega), if_pos (show 15 - k < bits.length by omega), hblen, show 16 - 1 - (15 - k) = k by omega,
      List.getD_eq_getElem _ _ (hlen ▸ hk), List.getD_eq_getElem _ _ (hblen ▸ hk)]
    exact parseBit_eq_some_iff.mp hchar
  case word =>
    intro hchars
    refine ⟨(List.range 16).map fun k => w.getLsbD (15 - k), ?parsed, ?value⟩
    case parsed =>
      apply List.ext_getElem (by simp [hlen])
      intro k hk _
      have hk16 : k < 16 := by simpa [hlen] using hk
      have hchar := hchars k hk16
      rw [List.getD_eq_getElem _ _ (hlen ▸ hk16)] at hchar
      simpa using parseBit_eq_some_iff.mpr hchar
    case value =>
      apply BitVec.eq_of_getLsbD_eq
      intro k hk
      rw [getLsbD_bitsToWord hk, List.length_map, List.length_range, if_pos hk,
        List.getD_eq_getElem _ _ (by simp; omega)]
      simp [show 15 - (16 - 1 - k) = k by omega]

theorem loadText_of_mapM {lines : List (List Char)} {ws : List Word} (h : lines.mapM parseLine = some ws)
    (romFill : Word) (s : State) : s.loadText romFill lines = s.loadProgram romFill ws := by
  rw [State.loadText, h]

/-- The inversion of a load from text: every line is a Word's, and the Words are the program. -/
theorem loadText_cases {romFill : Word} {lines : List (List Char)} {s t : State}
    (h : s.loadText romFill lines = some t) :
    ∃ ws, lines.map parseLine = ws.map some ∧ s.loadProgram romFill ws = some t := by
  cases hws : lines.mapM parseLine with
  | none => rw [State.loadText, hws] at h; cases h
  | some ws => exact ⟨ws, mapM_eq_some_iff.mp hws, loadText_of_mapM hws romFill s ▸ h⟩

/-- Settles O37, by the characters of a line and the Words a load places. -/
theorem loadTextPlacesLines : Obligations.LoadTextPlacesLines := by
  refine ⟨parseLine_eq_some_iff_chars, fun romFill lines s t h => ?placed, fun romFill lines line s hmem hnone => ?bad,
    fun romFill lines s hlen hall => ?loads⟩
  case placed =>
    obtain ⟨ws, hws, hload⟩ := loadText_cases h
    obtain ⟨hmax, ht, -, -, hread⟩ := loadProgram_cases hload
    have hlen : lines.length = ws.length := by simpa using congrArg List.length hws
    refine ⟨ht, fun n line hline => ?_, fun n hn hlast => ?_⟩
    · rw [List.head?_drop] at hline
      have hn : n < lines.length := (List.getElem?_eq_some_iff.mp hline).1
      have hw : some (parseLine line) = ws[n]?.map some := by
        rw [← List.getElem?_map, ← hws, List.getElem?_map, hline, Option.map_some]
      rw [hread n (by omega), List.getD_eq_getElem _ _ (hlen ▸ hn)]
      simpa [hlen ▸ hn] using hw
    · rw [hread n hlast, List.getD_eq_default _ _ (by omega)]
  case bad => rw [State.loadText, mapM_eq_none_iff.mpr ⟨line, hmem, hnone⟩]
  case loads =>
    cases hws : lines.mapM parseLine with
    | none =>
      obtain ⟨line, hmem, hnone⟩ := mapM_eq_none_iff.mp hws
      exact absurd hnone (hall line hmem)
    | some ws =>
      have hlenws : ws.length = lines.length := by simpa using (congrArg List.length (mapM_eq_some_iff.mp hws)).symm
      rw [loadText_of_mapM hws]
      exact ⟨_, if_pos (hlenws ▸ hlen)⟩

/-! ### The end of a run by loop -/

theorem romWord_eq_some_iff {s : State} {addr w : Word} :
    romWord s addr = some w ↔ uval addr ≤ 0x7FFF ∧ s.rom.readWord (uval addr) = w := by
  simp [romWord]

/-- What atEndLoop says: the A.LOAD of PC at PC, and an unconditional jump that does nothing else after it. -/
theorem atEndLoop_cases {s : State} (h : s.atEndLoop = true) : Fetches s s.pc ∧ ∃ w i, Fetches (s.setPc (s.pc + 1)) w ∧
    decode w = .ok i ∧ computeFields i = some (.regA, ⟨false, false, false⟩, .jmp) := by
  rw [State.atEndLoop, Bool.and_eq_true, beq_iff_eq, romWord_eq_some_iff, pcPlusOne_eq] at h
  obtain ⟨hload, hjump⟩ := h
  refine ⟨hload, ?_⟩
  cases hw : romWord s (s.pc + 1) with
  | none => rw [hw] at hjump; cases hjump
  | some w =>
    rw [hw] at hjump
    cases hd : decode w with
    | error e => simp [hd] at hjump
    | ok i => exact ⟨w, i, romWord_eq_some_iff.mp hw, hd, by simpa [hd] using hjump⟩

/-- One round of the loop: A.LOAD of PC, then the jump back. -/
theorem endLoop_round {s : State} (h : s.atEndLoop = true) :
    ∃ u, step s = .next u ∧ step u = .next { s with a := s.pc } := by
  obtain ⟨hload, w, i, hjump, hd, hf⟩ := atEndLoop_cases h
  have hlow : s.pc &&& 0x7FFF = s.pc := by
    apply BitVec.eq_of_toNat_eq
    rw [BitVec.toNat_and]
    exact (Nat.and_two_pow_sub_one_eq_mod s.pc.toNat 15).trans (Nat.mod_eq_of_lt (Nat.lt_succ_of_le hload.1))
  have h15 : s.pc.getLsbD 15 = false := by
    rw [← hlow, BitVec.getLsbD_and]
    exact Bool.and_false _
  refine ⟨_, step_address hload h15, ?_⟩
  rw [hlow, stepRunsDecoded { s with a := s.pc, pc := s.pc + 1 } w i hjump hd, exec_no_dest hf]
  rfl

/-- Settles O39, by induction on the number of rounds. -/
theorem endLoopIsFinal : Obligations.EndLoopIsFinal := by
  intro n
  induction n with
  | zero =>
    intro s h
    obtain ⟨u, hload, hjump⟩ := endLoop_round h
    exact ⟨_, (run_succ_of_step hload 1).trans (run_succ_of_step hjump 0), rfl, h⟩
  | succ n ih =>
    intro s h
    obtain ⟨u, hload, hjump⟩ := endLoop_round h
    obtain ⟨t, hrun, ht, hend⟩ := ih { s with a := s.pc } h
    refine ⟨t, ?_, ht, hend⟩
    rw [show 2 * (n + 1 + 1) = 2 * (n + 1) + 1 + 1 by omega, run_succ_of_step hload, run_succ_of_step hjump]
    exact hrun

end Sys2Proof.Machine
end
